-- ==== Sys2Proof/Word.lean ====
section
/-!
DEFINITION. The data words of the datapath (`30_encoding.md` R80 to R87) and the four-lane container.
Every value the spec treats as bits is a `BitVec` of the width the spec states (R11).
-/

namespace Sys2Proof

/-- An FP16 code: sign, exponent biased by 15, mantissa (R80). -/
abbrev Fp16 := BitVec 16

/-- A 16.16 fixed-point value; bit 31 is an ordinary integer bit (R83, C8). -/
abbrev Fixed := BitVec 32

/-- A log2 exponent code or a leading-one position (R86, R87). -/
abbrev Code := BitVec 4

/-- A slot number of the running-maximum buffer (R60). -/
abbrev SlotAddr := BitVec 10

/-- Four FP16 lanes in one word (R84). -/
abbrev RowWord := BitVec 64

/-- Four exponent codes in one word (R85). -/
abbrev PackedVec := BitVec 16

/-- Four like things, one per lane; lane `i` is `li`. -/
structure Quad (α : Type) where
  l0 : α
  l1 : α
  l2 : α
  l3 : α
deriving DecidableEq, Repr

/-- The same function on each lane. -/
def Quad.map {α β : Type} (f : α → β) (q : Quad α) : Quad β :=
  ⟨f q.l0, f q.l1, f q.l2, f q.l3⟩

/-- The same value in each lane. -/
def Quad.fill {α : Type} (a : α) : Quad α := ⟨a, a, a, a⟩

/-- A test that every lane passes. -/
def Quad.all {α : Type} (f : α → Bool) (q : Quad α) : Bool :=
  f q.l0 && f q.l1 && f q.l2 && f q.l3

end Sys2Proof
end

