-- ==== Sys2Proof/Config.lean ====
section
/-!
DEFINITION. The implementation parameters of `00_scope.md` R9. The FIXED ones are constants. The OPEN ones are a
record `Params` of plain data, which the machine carries and never changes (log 4), so that a statement about every
state holds for every choice of them; `Params.standard` is the choice every vector of the spec uses.
-/

namespace Sys2Proof

/-- What FADD, FSUB and FMUL do with a subnormal operand: `P_SUBNORMAL_IN` (R9, R111, C1, D2). -/
inductive SubnormalPolicy where
  /-- A subnormal operand behaves as a zero of the same sign. -/
  | zero
  /-- A subnormal operand is normalized and used (R117). -/
  | normalize
deriving DecidableEq, Repr

/-- The open parameters (R9). -/
structure Params where
  /-- `P_SUBNORMAL_IN` -/
  subnormalIn : SubnormalPolicy
  /-- `P_NAN_MANT`, the mantissa of a NaN the kernel generates; any nonzero value is legal (R113, D3, U1). -/
  nanMant : BitVec 10
  /-- `P_THR_F1`, the threshold literal for an is-over-half flag of 1 (R162, D4). -/
  thrF1 : Fp16
  /-- `P_THR_F0`, the threshold literal for an is-over-half flag of 0 (R162, D4). -/
  thrF0 : Fp16
deriving DecidableEq, Repr

/-- The values of the column "value" of R9. -/
def Params.standard : Params :=
  { subnormalIn := .zero, nanMant := 0x200#10, thrF1 := 0x3A8B#16, thrF0 := 0x388B#16 }

/-- `RMAX_DEPTH` (R9, FIXED). -/
def rmaxDepth : Nat := 1024

/-- `GMAX_RESET`, the code of the most negative finite FP16 value (R9, R29, R215, FIXED). -/
def gmaxReset : Fp16 := 0xFBFF#16

end Sys2Proof
end

