-- ==== Sys2Proof/Syntax.lean ====
section
/-!
DEFINITION. The 14 operations of `spec/opcode_table.json` (R91), the names that select them (R89), the raw records of
a cycle (R88, R330) and the wires of a deployment (R32, D16).
-/

namespace Sys2Proof

/-- An operation with the values on its input ports, in the order of its record (R88). One constructor per row of
the operation table. One-bit ports are `Bool` (log 15). -/
inductive Instr where
  /-- FP16 sum (R125). -/
  | fadd (a b : Fp16)
  /-- FP16 difference (R130). -/
  | fsub (a b : Fp16)
  /-- FP16 product (R140). -/
  | fmul (a b : Fp16)
  /-- FP16 two-input maximum (R150). -/
  | fmax (a b : Fp16)
  /-- Leading-one position and threshold (R161). -/
  | lod (x : Fixed)
  /-- Approximate log2 (R172). -/
  | log2 (x : Fp16)
  /-- One edge of the 4-way maximum finder (R181). -/
  | max4 (reset : Bool) (a b c d : Fp16)
  /-- One edge of the exponential-sum tree (R192). -/
  | expsum (reset : Bool) (vec : PackedVec)
  /-- Approximate reciprocal (R201). -/
  | rdiv (ky ks : Code) (thr : Fp16)
  /-- One edge of the running-maximum state (R211). -/
  | rmaxwr (reset we : Bool) (waddr : SlotAddr) (wdata : Fp16)
  /-- Combinational read of the running-maximum state (R212). -/
  | rmaxrd (raddr : SlotAddr)
  /-- One edge of the max-and-accumulate pipeline (R221). -/
  | pipema (reset inValid : Bool) (inAddr : SlotAddr) (gmaxIn : Fp16) (inWord : RowWord)
  /-- One edge of the reciprocal-precompute pipeline (R251). -/
  | piperp (reset stall : Bool) (xIn : Fixed)
  /-- One edge of the per-channel divide pipeline (R261). -/
  | pipediv (reset inValid : Bool) (lmaxIn gmaxIn : Fp16) (kyIn : PackedVec) (ksIn : Code) (thrIn : Fp16)
deriving DecidableEq, Repr

/-- The name that selects an operation (R89). RMAX and the FP16 kernel have several operations each, so the name is
the operation's, not the format's. -/
inductive Op where
  | fadd | fsub | fmul | fmax | lod | log2 | max4 | expsum | rdiv | rmaxwr | rmaxrd | pipema | piperp | pipediv
deriving DecidableEq, Repr

/-- The operations in the order of the table. -/
def Op.all : List Op :=
  [.fadd, .fsub, .fmul, .fmax, .lod, .log2, .max4, .expsum, .rdiv, .rmaxwr, .rmaxrd, .pipema, .piperp, .pipediv]

/-- The width of an operation's record in bits (R88). -/
def Op.width : Op → Nat
  | .fadd => 32
  | .fsub => 32
  | .fmul => 32
  | .fmax => 32
  | .lod => 32
  | .log2 => 16
  | .max4 => 65
  | .expsum => 17
  | .rdiv => 24
  | .rmaxwr => 28
  | .rmaxrd => 10
  | .pipema => 92
  | .piperp => 34
  | .pipediv => 70

/-- The operation an instruction belongs to. -/
def Instr.op : Instr → Op
  | .fadd _ _ => .fadd
  | .fsub _ _ => .fsub
  | .fmul _ _ => .fmul
  | .fmax _ _ => .fmax
  | .lod _ => .lod
  | .log2 _ => .log2
  | .max4 _ _ _ _ _ => .max4
  | .expsum _ _ => .expsum
  | .rdiv _ _ _ => .rdiv
  | .rmaxwr _ _ _ _ => .rmaxwr
  | .rmaxrd _ => .rmaxrd
  | .pipema _ _ _ _ _ => .pipema
  | .piperp _ _ _ => .piperp
  | .pipediv _ _ _ _ _ _ _ => .pipediv

/-- A raw record as a stimulus line gives it: the pair (name, bits) a decoder takes (R89). Bit 0 is the least
significant bit (R11). -/
structure Record where
  op : Op
  bits : Nat
deriving DecidableEq, Repr

/-- Which input ports a deployment drives from output ports of the same cycle instead of from the record (R32, D16).
The first three are the connections the source fixes; the others complete the reference composition (log 7). -/
structure Wires where
  /-- `PIPEMA.max_valid, max_addr, max_data` to `RMAX.we, waddr, wdata` (R32, R226). -/
  maToRmax : Bool
  /-- `RMAX.gmax` to `PIPEMA.gmax_in` (R32, R228). -/
  rmaxToMa : Bool
  /-- `PIPERP.ks_out, thr_out` to `PIPEDIV.ks_in, thr_in` (R32, R253). -/
  rpToDiv : Bool
  /-- `PIPEMA.acc_out` to `PIPERP.x_in` (D16). -/
  maToRp : Bool
  /-- `RMAX.gmax` and `RMAX.rdata` to `PIPEDIV.gmax_in` and `lmax_in` (D16). -/
  rmaxToDiv : Bool
  /-- `PIPEMA.vec_valid, vec_addr, vec_out` to the write port of VEC (D16). -/
  maToVec : Bool
  /-- `VEC[raddr]` to `PIPEDIV.ky_in` (D16). -/
  vecToDiv : Bool
deriving DecidableEq, Repr

/-- Every unit alone: each input port takes its value from the record. -/
def Wires.standalone : Wires := ⟨false, false, false, false, false, false, false⟩

/-- The three connections the source fixes (R32). -/
def Wires.fixed : Wires := ⟨true, true, true, false, false, false, false⟩

/-- The reference composition (D16). -/
def Wires.reference : Wires := ⟨true, true, true, true, true, true, true⟩

/-- `I_k` of R40: what is on every input port of every unit during one cycle ("A port is sampled or driven in every
cycle", R31), each operation's ports as its record (R88), one record per operation, so one write of RMAX per edge (R46);
with it the wires of the deployment and the reset pin of VEC (D16). No record is optional: a unit that a run does not
use is clocked as well, on whatever is on its inputs (R22, R312; log 1). -/
structure Cycle where
  wires : Wires
  /-- The reset pin of the reference composition's memory VEC (R73, D16). -/
  vecReset : Bool
  fadd : BitVec 32
  fsub : BitVec 32
  fmul : BitVec 32
  fmax : BitVec 32
  lod : BitVec 32
  log2 : BitVec 16
  max4 : BitVec 65
  expsum : BitVec 17
  rdiv : BitVec 24
  rmaxwr : BitVec 28
  rmaxrd : BitVec 10
  pipema : BitVec 92
  piperp : BitVec 34
  pipediv : BitVec 70
deriving DecidableEq, Repr

/-- A cycle with 0 on every input port and every unit standing alone. -/
def Cycle.zero : Cycle :=
  { wires := .standalone, vecReset := false, fadd := 0, fsub := 0, fmul := 0, fmax := 0, lod := 0, log2 := 0, max4 := 0,
    expsum := 0, rdiv := 0, rmaxwr := 0, rmaxrd := 0, pipema := 0, piperp := 0, pipediv := 0 }

end Sys2Proof
end

