-- ==== Sys2Proof/WellFormed.lean ====
section
/-!
DEFINITION. What is well formed. Every bit pattern of every record is legal (R92) and the operands of `Instr` have
exactly the widths of their ports, so every instruction is well formed; what can be ill formed is a raw record that
does not fit its operation's width (R88), and a parameter record whose NaN mantissa is zero (R9).
-/

namespace Sys2Proof

/-- The record fits the width of its operation (R88). -/
def Record.wf (r : Record) : Bool := decide (r.bits < 2 ^ r.op.width)

/-- `P_NAN_MANT` is "any nonzero value" (R9); the other parameters take every value. -/
def Params.wf (p : Params) : Bool := decide (p.nanMant ≠ 0)

end Sys2Proof
end

