-- ==== Sys2Proof/Decode.lean ====
section
/-!
DEFINITION. Records to instructions and back (R88, R89). The decoder takes the pair (operation name, record) and splits
the record into the ports, first port in the most significant bits; it is total, and rejects by name a record that is
wider than its operation's. The encoder concatenates the ports in the same order. `decodeTableWord` answers the host's
question about a word that carries no name (log 9).
-/

namespace Sys2Proof

/-- Why a raw record has no instruction. Raised by `decode` only, before any state is touched: safe. -/
inductive DecodeError where
  /-- The record has a bit set above the width of its operation's record (R88). -/
  | recordTooWide
deriving DecidableEq, Repr

/-! ### Splitting a record into its ports (R88) -/

/-- `FADD` record: a, b. -/
def decodeFadd (r : BitVec 32) : Instr := .fadd (r.extractLsb' 16 16) (r.extractLsb' 0 16)

/-- `FSUB` record: a, b. -/
def decodeFsub (r : BitVec 32) : Instr := .fsub (r.extractLsb' 16 16) (r.extractLsb' 0 16)

/-- `FMUL` record: a, b. -/
def decodeFmul (r : BitVec 32) : Instr := .fmul (r.extractLsb' 16 16) (r.extractLsb' 0 16)

/-- `FMAX` record: a, b. -/
def decodeFmax (r : BitVec 32) : Instr := .fmax (r.extractLsb' 16 16) (r.extractLsb' 0 16)

/-- `LOD` record: x. -/
def decodeLod (r : BitVec 32) : Instr := .lod r

/-- `LOG2` record: x. -/
def decodeLog2 (r : BitVec 16) : Instr := .log2 r

/-- `MAX4` record: reset, A, B, C, D. -/
def decodeMax4 (r : BitVec 65) : Instr :=
  .max4 (r.getLsbD 64) (r.extractLsb' 48 16) (r.extractLsb' 32 16) (r.extractLsb' 16 16) (r.extractLsb' 0 16)

/-- `EXPSUM` record: reset, vec. -/
def decodeExpsum (r : BitVec 17) : Instr := .expsum (r.getLsbD 16) (r.extractLsb' 0 16)

/-- `RDIV` record: ky, ks, thr. -/
def decodeRdiv (r : BitVec 24) : Instr := .rdiv (r.extractLsb' 20 4) (r.extractLsb' 16 4) (r.extractLsb' 0 16)

/-- `RMAXWR` record: reset, we, waddr, wdata. -/
def decodeRmaxwr (r : BitVec 28) : Instr :=
  .rmaxwr (r.getLsbD 27) (r.getLsbD 26) (r.extractLsb' 16 10) (r.extractLsb' 0 16)

/-- `RMAXRD` record: raddr. -/
def decodeRmaxrd (r : BitVec 10) : Instr := .rmaxrd r

/-- `PIPEMA` record: reset, in_valid, in_addr, gmax_in, in_word. -/
def decodePipema (r : BitVec 92) : Instr :=
  .pipema (r.getLsbD 91) (r.getLsbD 90) (r.extractLsb' 80 10) (r.extractLsb' 64 16) (r.extractLsb' 0 64)

/-- `PIPERP` record: reset, stall, x_in. -/
def decodePiperp (r : BitVec 34) : Instr := .piperp (r.getLsbD 33) (r.getLsbD 32) (r.extractLsb' 0 32)

/-- `PIPEDIV` record: reset, in_valid, lmax_in, gmax_in, ky_in, ks_in, thr_in. -/
def decodePipediv (r : BitVec 70) : Instr :=
  .pipediv (r.getLsbD 69) (r.getLsbD 68) (r.extractLsb' 52 16) (r.extractLsb' 36 16) (r.extractLsb' 20 16)
    (r.extractLsb' 16 4) (r.extractLsb' 0 16)

/-- Splits the bits of a record of the named operation; bits above its width are not looked at. -/
def splitRecord (op : Op) (n : Nat) : Instr :=
  match op with
  | .fadd => decodeFadd (BitVec.ofNat 32 n)
  | .fsub => decodeFsub (BitVec.ofNat 32 n)
  | .fmul => decodeFmul (BitVec.ofNat 32 n)
  | .fmax => decodeFmax (BitVec.ofNat 32 n)
  | .lod => decodeLod (BitVec.ofNat 32 n)
  | .log2 => decodeLog2 (BitVec.ofNat 16 n)
  | .max4 => decodeMax4 (BitVec.ofNat 65 n)
  | .expsum => decodeExpsum (BitVec.ofNat 17 n)
  | .rdiv => decodeRdiv (BitVec.ofNat 24 n)
  | .rmaxwr => decodeRmaxwr (BitVec.ofNat 28 n)
  | .rmaxrd => decodeRmaxrd (BitVec.ofNat 10 n)
  | .pipema => decodePipema (BitVec.ofNat 92 n)
  | .piperp => decodePiperp (BitVec.ofNat 34 n)
  | .pipediv => decodePipediv (BitVec.ofNat 70 n)

/-- The decoder: a pair (name, record) to its operation (R89). Every record that fits is legal (R92). -/
def decode (r : Record) : Except DecodeError Instr :=
  if r.wf then .ok (splitRecord r.op r.bits) else .error .recordTooWide

/-! ### The encoder: the ports concatenated, first port in the most significant bits (R88) -/

/-- The record of an instruction. -/
def encode (i : Instr) : Record :=
  { op := i.op
    bits :=
      match i with
      | .fadd a b => (a ++ b).toNat
      | .fsub a b => (a ++ b).toNat
      | .fmul a b => (a ++ b).toNat
      | .fmax a b => (a ++ b).toNat
      | .lod x => x.toNat
      | .log2 x => x.toNat
      | .max4 reset a b c d => (BitVec.ofBool reset ++ a ++ b ++ c ++ d).toNat
      | .expsum reset vec => (BitVec.ofBool reset ++ vec).toNat
      | .rdiv ky ks thr => (ky ++ ks ++ thr).toNat
      | .rmaxwr reset we waddr wdata => (BitVec.ofBool reset ++ BitVec.ofBool we ++ waddr ++ wdata).toNat
      | .rmaxrd raddr => raddr.toNat
      | .pipema reset inValid inAddr gmaxIn inWord =>
        (BitVec.ofBool reset ++ BitVec.ofBool inValid ++ inAddr ++ gmaxIn ++ inWord).toNat
      | .piperp reset stall xIn => (BitVec.ofBool reset ++ BitVec.ofBool stall ++ xIn).toNat
      | .pipediv reset inValid lmaxIn gmaxIn kyIn ksIn thrIn =>
        (BitVec.ofBool reset ++ BitVec.ofBool inValid ++ lmaxIn ++ gmaxIn ++ kyIn ++ ksIn ++ thrIn).toNat }

/-! ### The records of a cycle -/

/-- The operations of a cycle, all 14 in every cycle (R22, R40), the combinational ones first, then the sequential ones.
Units read and write only their own registers (R20), so the order shows only between RMAXRD and RMAXWR, and there the
read comes first: it shows "the state as of the last committed edge" (R212; log 19). -/
def presented (c : Cycle) : List Instr :=
  [decodeFadd c.fadd, decodeFsub c.fsub, decodeFmul c.fmul, decodeFmax c.fmax, decodeLod c.lod, decodeLog2 c.log2,
   decodeRdiv c.rdiv, decodeRmaxrd c.rmaxrd, decodeMax4 c.max4, decodeExpsum c.expsum, decodeRmaxwr c.rmaxwr,
   decodePipema c.pipema, decodePiperp c.piperp, decodePipediv c.pipediv]

/-- The record a cycle has on the input ports of one operation. -/
def Cycle.record (c : Cycle) (op : Op) : Record :=
  match op with
  | .fadd => ⟨.fadd, c.fadd.toNat⟩
  | .fsub => ⟨.fsub, c.fsub.toNat⟩
  | .fmul => ⟨.fmul, c.fmul.toNat⟩
  | .fmax => ⟨.fmax, c.fmax.toNat⟩
  | .lod => ⟨.lod, c.lod.toNat⟩
  | .log2 => ⟨.log2, c.log2.toNat⟩
  | .max4 => ⟨.max4, c.max4.toNat⟩
  | .expsum => ⟨.expsum, c.expsum.toNat⟩
  | .rdiv => ⟨.rdiv, c.rdiv.toNat⟩
  | .rmaxwr => ⟨.rmaxwr, c.rmaxwr.toNat⟩
  | .rmaxrd => ⟨.rmaxrd, c.rmaxrd.toNat⟩
  | .pipema => ⟨.pipema, c.pipema.toNat⟩
  | .piperp => ⟨.piperp, c.piperp.toNat⟩
  | .pipediv => ⟨.pipediv, c.pipediv.toNat⟩

/-- The cycle with one record put on its operation's input ports, all other ports as they are. -/
def Cycle.present (c : Cycle) (r : Record) : Cycle :=
  match r.op with
  | .fadd => { c with fadd := BitVec.ofNat 32 r.bits }
  | .fsub => { c with fsub := BitVec.ofNat 32 r.bits }
  | .fmul => { c with fmul := BitVec.ofNat 32 r.bits }
  | .fmax => { c with fmax := BitVec.ofNat 32 r.bits }
  | .lod => { c with lod := BitVec.ofNat 32 r.bits }
  | .log2 => { c with log2 := BitVec.ofNat 16 r.bits }
  | .max4 => { c with max4 := BitVec.ofNat 65 r.bits }
  | .expsum => { c with expsum := BitVec.ofNat 17 r.bits }
  | .rdiv => { c with rdiv := BitVec.ofNat 24 r.bits }
  | .rmaxwr => { c with rmaxwr := BitVec.ofNat 28 r.bits }
  | .rmaxrd => { c with rmaxrd := BitVec.ofNat 10 r.bits }
  | .pipema => { c with pipema := BitVec.ofNat 92 r.bits }
  | .piperp => { c with piperp := BitVec.ofNat 34 r.bits }
  | .pipediv => { c with pipediv := BitVec.ofNat 70 r.bits }

/-- The cycle with one operation's input ports at its operands, all other ports as they are. -/
def Cycle.give (c : Cycle) (i : Instr) : Cycle := c.present (encode i)

/-! ### A table word without a name (log 9) -/

/-- The width of an operation's record in whole bytes, counted in bits. -/
def wholeByteBits (op : Op) : Nat := (op.width + 7) / 8 * 8

/-- The first operation of a list whose record has `nbits` bits (exactly, or in whole bytes) and holds `w`. -/
def firstFitting (nbits w : Nat) : List Op → Option Record
  | [] => none
  | op :: ops =>
    if (nbits = op.width ∨ nbits = wholeByteBits op) ∧ w < 2 ^ op.width then some ⟨op, w⟩
    else firstFitting nbits w ops

/-- DESIGN CHOICE (log 9): a bare word names no unit (R89), so it is read as the record of the first operation of the
table, in the table's order, whose record it fits. -/
def recordOfTableWord (nbits w : Nat) : Option Record := firstFitting nbits w Op.all

/-- The instruction the decoder reads from a bare table word. -/
def decodeTableWord (nbits w : Nat) : Option Instr :=
  match recordOfTableWord nbits w with
  | none => none
  | some r => (decode r).toOption

end Sys2Proof
end

