-- ==== Sys2Proof/Machine/State.lean ====
section
/-!
DEFINITION. The state of the machine: every register of the table of `10_state.md` R21, unit by unit, as plain data;
the reference composition's memory VEC (log 8); and four fields of the model's own: the open parameters (log 4), what
is on the input ports and what the output ports showed in the last cycle (logs 1, 3), and the cycles the harness has
still to present (log 2).
There is no program counter, no flag, no control register and no mode (R20 to R25, R290).
-/

namespace Sys2Proof.Machine

/-- The machine never faults: "There are no exceptions, faults or traps" (R280). The type has no constructor, so no
definition of the model can raise one: safe (log 13). -/
inductive Fault
deriving DecidableEq, Repr

/-- Reasons for giving an instruction no meaning. -/
inductive Refusal where
  /-- Raised only by an arm of `exec` for an instruction that has no meaning yet; no arm does. Safe: a refused
  instruction has no next state. -/
  | notModelled (mnemonic : String)
deriving DecidableEq, Repr

/-- A memory of 1,024 slots of 16 bits (R60, R73) as the list of its nonzero slots, addresses strictly rising. A slot
that is not listed reads 0x0000, the value reset gives every slot (R213; log 6). -/
abbrev Slots := List (Nat × BitVec 16)

/-- The rank of MAX4. -/
structure Max4Regs where
  rAB : Fp16
  rCD : Fp16
deriving DecidableEq, Repr

/-- The rank of EXPSUM. -/
structure ExpsumRegs where
  p01 : Fixed
  p23 : Fixed
deriving DecidableEq, Repr

/-- The running-maximum state: `SLOT[0..1023]` and `GMAX`. -/
structure RmaxRegs where
  slot : Slots
  gmax : Fp16
deriving DecidableEq, Repr

/-- PIPEMA rank `S1`, "raw inputs". -/
structure StageS1 where
  v : Bool
  addr : SlotAddr
  lane : Quad Fp16
deriving DecidableEq, Repr

/-- PIPEMA rank `S2`, "per-channel maxima": the delayed lanes and the rank of the MAX4 instance. -/
structure StageS2 where
  v : Bool
  addr : SlotAddr
  lane : Quad Fp16
  rAB : Fp16
  rCD : Fp16
deriving DecidableEq, Repr

/-- PIPEMA rank `S3`, "per-channel differences": `diff` holds differences 0 to 3, `diff4` the fifth. -/
structure StageS3 where
  v : Bool
  addr : SlotAddr
  diff : Quad Fp16
  diff4 : Fp16
deriving DecidableEq, Repr

/-- PIPEMA rank `S4`, "log2 codes": `code` holds codes 0 to 3, `code4` the fifth. -/
structure StageS4 where
  v : Bool
  addr : SlotAddr
  code : Quad Code
  code4 : Code
deriving DecidableEq, Repr

/-- PIPEMA rank `S5`, "packed exponent vector", the shift amount and the rank of the EXPSUM instance. -/
structure StageS5 where
  v : Bool
  addr : SlotAddr
  vec : PackedVec
  sh : Code
  p01 : Fixed
  p23 : Fixed
deriving DecidableEq, Repr

/-- The ranks of PIPEMA and its accumulator. -/
structure PipeMaRegs where
  s1 : StageS1
  s2 : StageS2
  s3 : StageS3
  s4 : StageS4
  s5 : StageS5
  acc : Fixed
deriving DecidableEq, Repr

/-- The pair PIPERP holds. -/
structure PipeRpRegs where
  ks : Code
  thr : Fp16
deriving DecidableEq, Repr

/-- PIPEDIV rank `T1`. -/
structure StageT1 where
  v : Bool
  diff : Fp16
  ky : PackedVec
deriving DecidableEq, Repr

/-- PIPEDIV rank `T2`. -/
structure StageT2 where
  v : Bool
  code : Code
  ky : PackedVec
deriving DecidableEq, Repr

/-- PIPEDIV rank `T3`; the sums are 5 bits wide (R262, C5). -/
structure StageT3 where
  v : Bool
  sum : Quad (BitVec 5)
deriving DecidableEq, Repr

/-- PIPEDIV rank `T4`. -/
structure StageT4 where
  v : Bool
  q : Quad Fp16
deriving DecidableEq, Repr

/-- PIPEDIV rank `T5`. -/
structure StageT5 where
  v : Bool
  out : RowWord
deriving DecidableEq, Repr

/-- The ranks of PIPEDIV. -/
structure PipeDivRegs where
  t1 : StageT1
  t2 : StageT2
  t3 : StageT3
  t4 : StageT4
  t5 : StageT5
deriving DecidableEq, Repr

/-! ### Values on output ports (R31) -/

/-- Output ports of LOD. -/
structure LodOut where
  pos : Code
  flag : Bool
  thr : Fp16
deriving DecidableEq, Repr

/-- Read ports of RMAX. -/
structure RmaxOut where
  rdata : Fp16
  gmax : Fp16
deriving DecidableEq, Repr

/-- Output ports of PIPEMA. -/
structure PipeMaOut where
  maxValid : Bool
  maxAddr : SlotAddr
  maxData : Fp16
  vecValid : Bool
  vecAddr : SlotAddr
  vecOut : PackedVec
  accOut : Fixed
deriving DecidableEq, Repr

/-- Output ports of PIPERP. -/
structure PipeRpOut where
  ksOut : Code
  thrOut : Fp16
deriving DecidableEq, Repr

/-- Output ports of PIPEDIV. -/
structure PipeDivOut where
  outValid : Bool
  outWord : RowWord
deriving DecidableEq, Repr

/-- `O_k` of R40: what every output port of R31 shows in a cycle. These are no registers: an output is a function of the
registers and inputs of its cycle (R14, R40; log 3). -/
structure Outputs where
  fadd : Fp16
  fsub : Fp16
  fmul : Fp16
  fmax : Fp16
  lod : LodOut
  log2 : Code
  max4 : Fp16
  expsum : Fixed
  rdiv : Fp16
  rmaxrd : RmaxOut
  pipema : PipeMaOut
  piperp : PipeRpOut
  pipediv : PipeDivOut
deriving DecidableEq, Repr

/-- What the output ports show in the first cycle after reset (R314) with 0 on every input port: `LOD` of 0 selects
`P_THR_F0` (R161), every other combinational unit answers 0. -/
def Outputs.reset : Outputs :=
  { fadd := 0, fsub := 0, fmul := 0, fmax := 0, lod := ⟨0, false, Params.standard.thrF0⟩, log2 := 0, max4 := 0,
    expsum := 0, rdiv := 0, rmaxrd := ⟨0, gmaxReset⟩, pipema := ⟨false, 0, 0, false, 0, 0, 0⟩, piperp := ⟨0, 0⟩,
    pipediv := ⟨false, 0⟩ }

/-! ### Reset values, unit by unit (R21, R311) -/

/-- MAX4 after reset. -/
def Max4Regs.reset : Max4Regs := ⟨0, 0⟩

/-- EXPSUM after reset (D8). -/
def ExpsumRegs.reset : ExpsumRegs := ⟨0, 0⟩

/-- RMAX after reset: every slot 0x0000, `GMAX` the most negative finite value (R213). -/
def RmaxRegs.reset : RmaxRegs := ⟨[], gmaxReset⟩

/-- PIPEMA after reset: "every field of S1 to S5" zero, `ACC` zero. -/
def PipeMaRegs.reset : PipeMaRegs :=
  { s1 := ⟨false, 0, .fill 0⟩
    s2 := ⟨false, 0, .fill 0, 0, 0⟩
    s3 := ⟨false, 0, .fill 0, 0⟩
    s4 := ⟨false, 0, .fill 0, 0⟩
    s5 := ⟨false, 0, 0, 0, 0, 0⟩
    acc := 0 }

/-- PIPERP after reset: the pair (0x0, 0x0000), which is neither literal (R254). -/
def PipeRpRegs.reset : PipeRpRegs := ⟨0, 0⟩

/-- PIPEDIV after reset: "every field of T1 to T5" zero. -/
def PipeDivRegs.reset : PipeDivRegs :=
  { t1 := ⟨false, 0, 0⟩
    t2 := ⟨false, 0, 0⟩
    t3 := ⟨false, .fill 0⟩
    t4 := ⟨false, .fill 0⟩
    t5 := ⟨false, 0⟩ }

/-- The state of the machine. -/
structure State where
  /-- The open parameters (R9); no step changes them (log 4). -/
  cfg : Params
  max4 : Max4Regs
  expsum : ExpsumRegs
  rmax : RmaxRegs
  pipema : PipeMaRegs
  piperp : PipeRpRegs
  pipediv : PipeDivRegs
  /-- VEC, the word memory of the reference composition, outside the core (D16, R73; log 8). -/
  vec : Slots
  /-- What is on the input ports: the inputs of the cycle last stepped, which stay there until the harness drives
  others (logs 1, 2). -/
  ports : Cycle
  /-- What the output ports showed in the cycle last stepped (log 3). -/
  out : Outputs
  /-- The cycles the harness has still to present, the next one first (R330; log 2). -/
  stim : List Cycle
deriving DecidableEq, Repr

/-- The state after an edge at which `reset` was 1 on every unit (R311), with the parameters at the values of R9, VEC
reset (R73), 0 on every input port (log 2), the output ports as they are then, and no cycle to present. -/
def State.reset : State :=
  { cfg := .standard
    max4 := .reset
    expsum := .reset
    rmax := .reset
    pipema := .reset
    piperp := .reset
    pipediv := .reset
    vec := []
    ports := .zero
    out := .reset
    stim := [] }

/-! ### Named updates: one per part of the state -/

/-- Commits MAX4's registers. -/
def State.withMax4 (s : State) (r : Max4Regs) : State := { s with max4 := r }

/-- Commits EXPSUM's registers. -/
def State.withExpsum (s : State) (r : ExpsumRegs) : State := { s with expsum := r }

/-- Commits the running-maximum state. -/
def State.withRmax (s : State) (r : RmaxRegs) : State := { s with rmax := r }

/-- Commits PIPEMA's registers. -/
def State.withPipema (s : State) (r : PipeMaRegs) : State := { s with pipema := r }

/-- Commits PIPERP's registers. -/
def State.withPiperp (s : State) (r : PipeRpRegs) : State := { s with piperp := r }

/-- Commits PIPEDIV's registers. -/
def State.withPipediv (s : State) (r : PipeDivRegs) : State := { s with pipediv := r }

/-- Commits VEC. -/
def State.withVec (s : State) (m : Slots) : State := { s with vec := m }

/-- Replaces what the output ports show. -/
def State.withOut (s : State) (o : Outputs) : State := { s with out := o }

/-- Replaces what is on the input ports. -/
def State.withPorts (s : State) (c : Cycle) : State := { s with ports := c }

/-- Replaces the cycles still to present. -/
def State.withStim (s : State) (cs : List Cycle) : State := { s with stim := cs }

end Sys2Proof.Machine
end

