-- ==== Sys2Proof/Machine/Operands.lean ====
section
/-!
DEFINITION. Operand forms: the fields and classes of an FP16 code (R16, R80, R81), the significand and effective
exponent of a finite operand (R116, R117, R121), and the lanes of packed words (R84, R85). The lane order is decided
here and nowhere else (D19, U8).
-/

namespace Sys2Proof.Machine

/-! ### Fields and classes of an FP16 code -/

/-- `sign(x) = x[15]`. -/
def sign (x : Fp16) : Bool := x.getLsbD 15

/-- `expo(x) = x[14:10]`, biased by 15. -/
def expo (x : Fp16) : BitVec 5 := x.extractLsb' 10 5

/-- `mant(x) = x[9:0]`. -/
def mant (x : Fp16) : BitVec 10 := x.extractLsb' 0 10

/-- The 15-bit ordering field `x[14:0]` (R90, R150). -/
def field15 (x : Fp16) : BitVec 15 := x.extractLsb' 0 15

/-- An FP16 code from its fields (R80). -/
def packFp (s : Bool) (e : BitVec 5) (m : BitVec 10) : Fp16 := BitVec.ofBool s ++ e ++ m

/-- `isNaN` of R16. -/
def isNaN (x : Fp16) : Bool := expo x == 31 && mant x != 0

/-- `isInf` of R16. -/
def isInf (x : Fp16) : Bool := expo x == 31 && mant x == 0

/-- `isZero` of R16. -/
def isZero (x : Fp16) : Bool := expo x == 0 && mant x == 0

/-- `isSub` of R16. -/
def isSub (x : Fp16) : Bool := expo x == 0 && mant x != 0

/-- `isNorm` of R16. -/
def isNorm (x : Fp16) : Bool := expo x != 0 && expo x != 31

/-- `isZeroClass` of R111: a zero, or a subnormal under the policy `ZERO`. -/
def isZeroClass (p : Params) (x : Fp16) : Bool := isZero x || (isSub x && p.subnormalIn == .zero)

/-- The code with its sign bit flipped (R96, R130). -/
def flipSign (x : Fp16) : Fp16 := x ^^^ 0x8000#16

/-- `{s, 00000, 0000000000}`. -/
def signedZero (s : Bool) : Fp16 := packFp s 0 0

/-- `{s, 11111, 0000000000}`. -/
def signedInf (s : Bool) : Fp16 := packFp s 31 0

/-- `GenNaN(s)` of R113. -/
def genNaN (p : Params) (s : Bool) : Fp16 := packFp s 31 p.nanMant

/-! ### Significand and effective exponent of a nonzero finite operand -/

/-- Scanning bits `n-1` down to 0 of `v`, the index of the first set bit; 0 if none is set (R161). -/
def leadingOne (v : Nat) : Nat → Nat
  | 0 => 0
  | n + 1 => if v.testBit n then n else leadingOne v n

/-- The number of leading zeros of a nonzero mantissa seen as a 10-bit value (R117). -/
def mantZeros (x : Fp16) : Nat := 9 - leadingOne (mant x).toNat 10

/-- `sig(x)`, 11 bits: `{1, mant(x)}` of a normal operand (R116), the mantissa shifted up until bit 10 is set of a
subnormal one (R117). -/
def sig (x : Fp16) : BitVec 11 :=
  if isSub x then (mant x).setWidth 11 <<< (mantZeros x + 1) else 1#1 ++ mant x

/-- `eff(x)`, an integer: the biased exponent of a normal operand (R116), minus the leading zeros of a subnormal one
(R117). -/
def eff (x : Fp16) : Int :=
  if isSub x then -(mantZeros x : Int) else ((expo x).toNat : Int)

/-- `ext(x) = {sig(x), 000}` (R121). -/
def ext (x : Fp16) : BitVec 14 := sig x ++ 0#3

/-! ### Lanes (R84, R85) -/

/-- The four FP16 lanes of a row word: `lane16(w, i) = w[16*i+15 : 16*i]`. -/
def lanes16 (w : RowWord) : Quad Fp16 :=
  ⟨w.extractLsb' 0 16, w.extractLsb' 16 16, w.extractLsb' 32 16, w.extractLsb' 48 16⟩

/-- The four codes of a packed vector: `lane4(v, i) = v[4*i+3 : 4*i]`. -/
def lanes4 (v : PackedVec) : Quad Code :=
  ⟨v.extractLsb' 0 4, v.extractLsb' 4 4, v.extractLsb' 8 4, v.extractLsb' 12 4⟩

/-- A row word from its lanes. -/
def packRow (q : Quad Fp16) : RowWord := q.l3 ++ q.l2 ++ q.l1 ++ q.l0

/-- A packed exponent vector from its codes. -/
def packVec (q : Quad Code) : PackedVec := q.l3 ++ q.l2 ++ q.l1 ++ q.l0

end Sys2Proof.Machine
end

