-- ==== Sys2Proof/Machine/Flags.lean ====
section
/-!
DEFINITION. The hardware has no flags and no condition codes (R23). What stands here are the one-bit values the units
compute on the way to a result: the guard, round and sticky decision (R123), the sticky bit of an alignment (R125), the
is-over-half bit of LOD (R161) and the carry bit of LOG2 (R172). None of them is state.
-/

namespace Sys2Proof.Machine

/-- Round to nearest, ties to even: `up = G & (R | T | keep[0])` (R123, G3). -/
def roundUp (g r t keep0 : Bool) : Bool := g && (r || t || keep0)

/-- `orr` of the low `d` bits of a significand: 1 when a bit is lost by shifting right `d` places (R12, R125). -/
def lostBits (y : BitVec 14) (d : Nat) : Bool := y.toNat % 2 ^ d != 0

/-- LOD's is-over-half flag `x[15 + pos]`: the bit just below the leading one (R161). -/
def overHalf (x : Fixed) (pos : Nat) : Bool := x.getLsbD (15 + pos)

/-- LOG2's carry: the bit above the result window (R172, D24). -/
def log2Carry (sh : BitVec 18) : Bool := sh.getLsbD 17

end Sys2Proof.Machine
end

