-- ==== Sys2Proof/Machine/Ops.lean ====
section
/-!
DEFINITION. The shared operations: the slot memory (R60 to R63, R73), rounding and packing (R123), the functions the
units are built from (FADD R125, FSUB R130, FMUL R140, FMAX R150, LOD R161, LOG2 R172, LaneVal R191, RDIV R201), each
once, so that a pipeline and a unit standing alone use the same definition. There is no exception to take and none to
return from (R280, R284, R285; log 13).
-/

namespace Sys2Proof.Machine

/-! ### The slot memory -/

/-- `MemRead(n, 1)`: the slot's contents; a slot that is not listed reads 0x0000 (R62, R213). -/
def readSlots : Slots → Nat → BitVec 16
  | [], _ => 0#16
  | (a, w) :: m, n => if n = a then w else readSlots m n

/-- `MemWrite(n, 1, v)`: the memory with one slot replaced, in canonical form again (R63). -/
def writeSlots : Slots → Nat → BitVec 16 → Slots
  | [], n, v => if v = 0#16 then [] else [(n, v)]
  | (a, w) :: m, n, v =>
    if n < a then (if v = 0#16 then (a, w) :: m else (n, v) :: (a, w) :: m)
    else if n = a then (if v = 0#16 then m else (n, v) :: m)
    else (a, w) :: writeSlots m n v

/-- Canonical from an address on: addresses strictly rising and below `RMAX_DEPTH`, no entry equal to what an unlisted
slot reads. -/
def slotsWfFrom (lo : Nat) : Slots → Bool
  | [] => true
  | (a, w) :: m => decide (lo ≤ a) && decide (a < rmaxDepth) && decide (w ≠ 0#16) && slotsWfFrom (a + 1) m

/-- The canonical form of a slot memory. -/
def Memory.wf (m : Slots) : Bool := slotsWfFrom 0 m

/-! ### Rounding and packing -/

/-- `RoundPack(s, e, S)` of R123: round the top 11 bits to nearest even, then saturate to infinity or flush to zero. -/
def roundPack (s : Bool) (e : Int) (S : BitVec 14) : Fp16 :=
  let keep : BitVec 11 := S.extractLsb' 3 11
  let up := roundUp (S.getLsbD 2) (S.getLsbD 1) (S.getLsbD 0) (keep.getLsbD 0)
  let k12 : BitVec 12 := keep.setWidth 12 + (if up then 1 else 0)
  let e' : Int := if k12 = 0x800#12 then e + 1 else e
  let k : BitVec 12 := if k12 = 0x800#12 then 0x400#12 else k12
  if 31 ≤ e' then signedInf s
  else if e' ≤ 0 then signedZero s
  else packFp s (BitVec.ofInt 5 e') (k.extractLsb' 0 10)

/-! ### FADD and FSUB -/

/-- The magnitude of `a` is at least that of `b`: effective exponents first, then significands (R125 line 9). -/
def geMagnitude (a b : Fp16) : Bool :=
  decide (eff b < eff a) || (decide (eff a = eff b) && decide (sig b ≤ sig a))

/-- The lesser operand's extended significand shifted right `d` places, what is lost kept as the sticky bit; from 14
places on only the sticky bit is left (R125). -/
def alignSticky (y : BitVec 14) (d : Nat) : BitVec 14 :=
  if 14 ≤ d then 1 else (y >>> d) ||| (if lostBits y d then 1 else 0)

/-- `while S[13] = 0 do S = S << 1; e = e - 1`, at most `n` times (R125). -/
def normalize : Nat → Int → BitVec 14 → Int × BitVec 14
  | 0, e, S => (e, S)
  | n + 1, e, S => if S.getLsbD 13 then (e, S) else normalize n (e - 1) (S <<< 1)

/-- The arithmetic path of FADD for two nonzero finite operands, `g` the greater in magnitude (R125 line 9). -/
def addMagnitudes (g l : Fp16) : Fp16 :=
  let x := ext g
  let y := alignSticky (ext l) (eff g - eff l).toNat
  let e := eff g
  if sign g = sign l then
    let S : BitVec 15 := x.setWidth 15 + y.setWidth 15
    if S.getLsbD 14 then
      roundPack (sign g) (e + 1) (((S >>> 1) ||| (S &&& 1)).setWidth 14)
    else roundPack (sign g) e (S.setWidth 14)
  else
    let S : BitVec 14 := x - y
    if S = 0 then 0
    else
      let r := normalize 13 e S
      roundPack (sign g) r.1 r.2

/-- `FADD(a, b)` of R125: the cases in the order written; the first that holds gives the result. -/
def fpAdd (p : Params) (a b : Fp16) : Fp16 :=
  if isNaN a then a
  else if isNaN b then b
  else if isInf a && isInf b && (sign a != sign b) then genNaN p (sign a)
  else if isInf a then a
  else if isInf b then b
  else if isZeroClass p a && isZeroClass p b then signedZero (sign a && sign b)
  else if isZeroClass p a then (if isNorm b then b else signedZero (sign b))
  else if isZeroClass p b then (if isNorm a then a else signedZero (sign a))
  else if geMagnitude a b then addMagnitudes a b
  else addMagnitudes b a

/-- `FSUB(a, b) = FADD(a, b ^ 0x8000)` (R130). -/
def fpSub (p : Params) (a b : Fp16) : Fp16 := fpAdd p a (flipSign b)

/-! ### FMUL -/

/-- The arithmetic path of FMUL for two nonzero finite operands (R140 line 6). -/
def mulMagnitudes (s : Bool) (a b : Fp16) : Fp16 :=
  let P : BitVec 22 := (sig a).setWidth 22 * (sig b).setWidth 22
  let e := eff a + eff b - 15
  if P.getLsbD 21 then
    roundPack s (e + 1)
      (P.extractLsb' 11 11 ++ P.extractLsb' 10 1 ++ P.extractLsb' 9 1 ++ BitVec.ofBool (P.extractLsb' 0 9 != 0))
  else
    roundPack s e
      (P.extractLsb' 10 11 ++ P.extractLsb' 9 1 ++ P.extractLsb' 8 1 ++ BitVec.ofBool (P.extractLsb' 0 8 != 0))

/-- `FMUL(a, b)` of R140. -/
def fpMul (p : Params) (a b : Fp16) : Fp16 :=
  let s := sign a != sign b
  if isNaN a then a
  else if isNaN b then b
  else if (isInf a && isZeroClass p b) || (isZeroClass p a && isInf b) then genNaN p s
  else if isInf a || isInf b then signedInf s
  else if isZeroClass p a || isZeroClass p b then signedZero s
  else mulMagnitudes s a b

/-! ### FMAX -/

/-- `FMAX(a, b)` of R150: any code of sign 0 above any of sign 1; the larger field among sign 0, the smaller among
sign 1. No class is treated specially. -/
def fpMax (a b : Fp16) : Fp16 :=
  if sign a != sign b then (if sign a then b else a)
  else if sign a then (if field15 a ≤ field15 b then a else b)
  else (if field15 b ≤ field15 a then a else b)

/-! ### LOD -/

/-- `LOD(x)` of R161 with the literals of R162. -/
def leadingOneThreshold (p : Params) (x : Fixed) : LodOut :=
  let pos := leadingOne (x.extractLsb' 16 16).toNat 16
  let flag := overHalf x pos
  { pos := BitVec.ofNat 4 pos, flag := flag, thr := if flag then p.thrF1 else p.thrF0 }

/-! ### LOG2 -/

/-- The 5-bit window `{1, mant(x)[9:6]}` (R171). -/
def log2Window (x : Fp16) : BitVec 5 := 1#1 ++ x.extractLsb' 6 4

/-- `op1 + op2 - op3`: the window times 1, 1/2 and -1/16 in the 18-bit format with 13 fractional bits (R172, D24). -/
def log2Sum (w : BitVec 5) : BitVec 18 :=
  (w.setWidth 18 <<< 9) + (w.setWidth 18 <<< 8) - (w.setWidth 18 <<< 5)

/-- `LOG2(x)` of R172. The sign is not read. -/
def log2Code (x : Fp16) : Code :=
  let E := (expo x).toNat
  let sum := log2Sum (log2Window x)
  let sh : BitVec 18 := if 15 ≤ E then sum <<< (E - 15) else sum >>> (15 - E)
  if E ≤ 13 then 0x0
  else if 19 ≤ E then 0xF
  else if E = 18 ∧ log2Carry sh then 0xF
  else sh.extractLsb' 13 4

/-! ### Exponential sums -/

/-- `LaneVal(c) = 0x00010000 >> c` (R191). -/
def laneVal (c : Code) : Fixed := 0x00010000#32 >>> c.toNat

/-- The partial sums of four codes: lanes 0 and 1, lanes 2 and 3 (R192). -/
def partialSums (q : Quad Code) : ExpsumRegs :=
  { p01 := laneVal q.l0 + laneVal q.l1, p23 := laneVal q.l2 + laneVal q.l3 }

/-! ### RDIV -/

/-- `clamp(v, 0, 31)` (R12, R201). -/
def clampExp (v : Int) : Int := if v < 0 then 0 else if 31 < v then 31 else v

/-- `RDIV(ky, ks, thr)` of R201; `ky` is the 4-bit port of the unit standing alone or the 5-bit one inside PIPEDIV
(R262), so it is taken as an integer. -/
def approxDivide (ky ks : Nat) (thr : Fp16) : Fp16 :=
  let rightShift : Nat := ky + ks
  let newExponent := clampExp ((expo thr).toNat - (rightShift : Int))
  packFp (sign thr) (BitVec.ofInt 5 newExponent) (mant thr)

end Sys2Proof.Machine
end

