-- ==== Sys2Proof/Machine/Kernel.lean ====
section
/-!
DEFINITION. The meanings of the FP16 kernel (`40_fp16_kernel.md`): combinational, no state, no flags, no exceptions; the
only effect is the value on the output port `y` (R110, R155).
-/

namespace Sys2Proof.Machine

/-- FADD (R125). -/
def execFadd (a b : Fp16) (s : State) : Host.Outcome State Fault Refusal :=
  .next (s.withOut { s.out with fadd := fpAdd s.cfg a b })

/-- FSUB (R130). -/
def execFsub (a b : Fp16) (s : State) : Host.Outcome State Fault Refusal :=
  .next (s.withOut { s.out with fsub := fpSub s.cfg a b })

/-- FMUL (R140). -/
def execFmul (a b : Fp16) (s : State) : Host.Outcome State Fault Refusal :=
  .next (s.withOut { s.out with fmul := fpMul s.cfg a b })

/-- FMAX (R150). -/
def execFmax (a b : Fp16) (s : State) : Host.Outcome State Fault Refusal :=
  .next (s.withOut { s.out with fmax := fpMax a b })

end Sys2Proof.Machine
end

