-- ==== Sys2Proof/Machine/Lookup.lean ====
section
/-!
DEFINITION. The meanings of the three combinational units with no state outside the FP16 kernel: LOD
(`41_lod_threshold.md`), LOG2 (`42_log2.md`) and RDIV (`45_rdiv.md`). The only effect is on the output ports.
-/

namespace Sys2Proof.Machine

/-- LOD (R161). -/
def execLod (x : Fixed) (s : State) : Host.Outcome State Fault Refusal :=
  .next (s.withOut { s.out with lod := leadingOneThreshold s.cfg x })

/-- LOG2 (R172). -/
def execLog2 (x : Fp16) (s : State) : Host.Outcome State Fault Refusal :=
  .next (s.withOut { s.out with log2 := log2Code x })

/-- RDIV (R201), with the 4-bit `ky` port of the unit standing alone. -/
def execRdiv (ky ks : Code) (thr : Fp16) (s : State) : Host.Outcome State Fault Refusal :=
  .next (s.withOut { s.out with rdiv := approxDivide ky.toNat ks.toNat thr })

end Sys2Proof.Machine
end

