-- ==== Sys2Proof/Machine/PipeDiv.lean ====
section
/-!
DEFINITION. The per-channel divide pipeline (`49_pipe_div.md`). Each rank's next value is a function of the rank before
it, and for `T4` of `ks_in`, `thr_in` as well (R28, R265).
-/

namespace Sys2Proof.Machine

/-- Rank `T1`: `local_max - global_max` (R263). -/
def nextT1 (p : Params) (inValid : Bool) (lmaxIn gmaxIn : Fp16) (kyIn : PackedVec) : StageT1 :=
  { v := inValid, diff := fpSub p lmaxIn gmaxIn, ky := kyIn }

/-- Rank `T2`: the code of the difference (R264). -/
def nextT2 (r : StageT1) : StageT2 := { v := r.v, code := log2Code r.diff, ky := r.ky }

/-- Rank `T3`: code plus ky, kept whole in 5 bits (R262, R265). -/
def nextT3 (r : StageT2) : StageT3 :=
  { v := r.v, sum := (lanes4 r.ky).map (fun k => r.code.setWidth 5 + k.setWidth 5) }

/-- Rank `T4`: four dividers with the broadcast pair of the cycle (R265). -/
def nextT4 (ksIn : Code) (thrIn : Fp16) (r : StageT3) : StageT4 :=
  { v := r.v, q := r.sum.map (fun k => approxDivide k.toNat ksIn.toNat thrIn) }

/-- Rank `T5`: pack (R266). -/
def nextT5 (r : StageT4) : StageT5 := { v := r.v, out := packRow r.q }

/-- All registers of PIPEDIV after one edge (R261). -/
def nextPipediv (p : Params) (reset inValid : Bool) (lmaxIn gmaxIn : Fp16) (kyIn : PackedVec) (ksIn : Code)
    (thrIn : Fp16) (r : PipeDivRegs) : PipeDivRegs :=
  if reset then .reset
  else
    { t1 := nextT1 p inValid lmaxIn gmaxIn kyIn, t2 := nextT2 r.t1, t3 := nextT3 r.t2, t4 := nextT4 ksIn thrIn r.t3
      t5 := nextT5 r.t4 }

/-- What PIPEDIV's output ports show (R267). -/
def showPipediv (r : PipeDivRegs) : PipeDivOut := { outValid := r.t5.v, outWord := r.t5.out }

/-- PIPEDIV: one edge (R261). -/
def execPipediv (reset inValid : Bool) (lmaxIn gmaxIn : Fp16) (kyIn : PackedVec) (ksIn : Code) (thrIn : Fp16)
    (s : State) : Host.Outcome State Fault Refusal :=
  .next ((s.withOut { s.out with pipediv := showPipediv s.pipediv }).withPipediv
    (nextPipediv s.cfg reset inValid lmaxIn gmaxIn kyIn ksIn thrIn s.pipediv))

end Sys2Proof.Machine
end

