-- ==== Sys2Proof/Machine/PipeMa.lean ====
section
/-!
DEFINITION. The max-and-accumulate pipeline (`47_pipe_ma.md`). Each rank's next value is a function of the rank before
it, and for `S3` of `gmax_in` as well (R28); every right-hand side reads the registers as committed at the last edge
(R221).
-/

namespace Sys2Proof.Machine

/-- The row maximum `M`, combinational from `S2` (R224). -/
def rowMax (r : StageS2) : Fp16 := fpMax r.rAB r.rCD

/-- Rank `S1`, unpack (R222). -/
def nextS1 (inValid : Bool) (inAddr : SlotAddr) (inWord : RowWord) : StageS1 :=
  { v := inValid, addr := inAddr, lane := lanes16 inWord }

/-- Rank `S2`, first level of the maximum tree, the lanes carried alongside (R223). -/
def nextS2 (r : StageS1) : StageS2 :=
  { v := r.v, addr := r.addr, lane := r.lane
    rAB := fpMax r.lane.l0 r.lane.l1, rCD := fpMax r.lane.l2 r.lane.l3 }

/-- Rank `S3`, the five differences (R227). -/
def nextS3 (p : Params) (gmaxIn : Fp16) (r : StageS2) : StageS3 :=
  { v := r.v, addr := r.addr
    diff := r.lane.map (fun x => fpSub p x (rowMax r)), diff4 := fpSub p (rowMax r) gmaxIn }

/-- Rank `S4`, the five codes (R229). -/
def nextS4 (r : StageS3) : StageS4 :=
  { v := r.v, addr := r.addr, code := r.diff.map log2Code, code4 := log2Code r.diff4 }

/-- Rank `S5`, the packed vector, the shift amount and the partial sums of the same row (R230). -/
def nextS5 (r : StageS4) : StageS5 :=
  { v := r.v, addr := r.addr, vec := packVec r.code, sh := r.code4
    p01 := (partialSums r.code).p01, p23 := (partialSums r.code).p23 }

/-- The accumulator: `((ACC >> S5.sh) + S5.P01 + S5.P23) mod 2^32` if `S5.v`, else held (R232). -/
def nextAcc (r : StageS5) (acc : Fixed) : Fixed :=
  if r.v then (acc >>> r.sh.toNat) + (r.p01 + r.p23) else acc

/-- All registers of PIPEMA after one edge (R221). -/
def nextPipema (p : Params) (reset inValid : Bool) (inAddr : SlotAddr) (gmaxIn : Fp16) (inWord : RowWord)
    (r : PipeMaRegs) : PipeMaRegs :=
  if reset then .reset
  else
    { s1 := nextS1 inValid inAddr inWord, s2 := nextS2 r.s1, s3 := nextS3 p gmaxIn r.s2, s4 := nextS4 r.s3
      s5 := nextS5 r.s4, acc := nextAcc r.s5 r.acc }

/-- What PIPEMA's output ports show, from registers only (R225, R231, R233). -/
def showPipema (r : PipeMaRegs) : PipeMaOut :=
  { maxValid := r.s2.v, maxAddr := r.s2.addr, maxData := rowMax r.s2
    vecValid := r.s5.v, vecAddr := r.s5.addr, vecOut := r.s5.vec, accOut := r.acc }

/-- PIPEMA: one edge (R221). -/
def execPipema (reset inValid : Bool) (inAddr : SlotAddr) (gmaxIn : Fp16) (inWord : RowWord) (s : State) :
    Host.Outcome State Fault Refusal :=
  .next ((s.withOut { s.out with pipema := showPipema s.pipema }).withPipema
    (nextPipema s.cfg reset inValid inAddr gmaxIn inWord s.pipema))

end Sys2Proof.Machine
end

