-- ==== Sys2Proof/Machine/PipeRp.lean ====
section
/-!
DEFINITION. The reciprocal-precompute pipeline (`48_pipe_rp.md`): LOD into two registers with a hold.
-/

namespace Sys2Proof.Machine

/-- The next pair: reset, else hold under stall, else the LOD of the input (R45, R251). -/
def nextPiperp (p : Params) (reset stall : Bool) (xIn : Fixed) (r : PipeRpRegs) : PipeRpRegs :=
  if reset then .reset
  else if stall then r
  else { ks := (leadingOneThreshold p xIn).pos, thr := (leadingOneThreshold p xIn).thr }

/-- What PIPERP's output ports show (R251). -/
def showPiperp (r : PipeRpRegs) : PipeRpOut := { ksOut := r.ks, thrOut := r.thr }

/-- PIPERP: one edge (R251). -/
def execPiperp (reset stall : Bool) (xIn : Fixed) (s : State) : Host.Outcome State Fault Refusal :=
  .next ((s.withOut { s.out with piperp := showPiperp s.piperp }).withPiperp
    (nextPiperp s.cfg reset stall xIn s.piperp))

end Sys2Proof.Machine
end

