-- ==== Sys2Proof/Machine/Rmax.lean ====
section
/-!
DEFINITION. The running-maximum state (`46_rmax.md`): the write of a slot, which also updates `GMAX`, and the
combinational read.
-/

namespace Sys2Proof.Machine

/-- The next running-maximum state: reset, else a write, else no change (R211). -/
def nextRmax (reset we : Bool) (waddr : SlotAddr) (wdata : Fp16) (r : RmaxRegs) : RmaxRegs :=
  if reset then .reset
  else if we then { slot := writeSlots r.slot waddr.toNat wdata, gmax := fpMax r.gmax wdata }
  else r

/-- RMAXWR: one edge (R211). -/
def execRmaxwr (reset we : Bool) (waddr : SlotAddr) (wdata : Fp16) (s : State) : Host.Outcome State Fault Refusal :=
  .next (s.withRmax (nextRmax reset we waddr wdata s.rmax))

/-- What the read ports show: "the state as of the last committed edge" (R212). -/
def readRmax (r : RmaxRegs) (raddr : SlotAddr) : RmaxOut :=
  { rdata := readSlots r.slot raddr.toNat, gmax := r.gmax }

/-- RMAXRD: combinational, no side effect (R62, R212). -/
def execRmaxrd (raddr : SlotAddr) (s : State) : Host.Outcome State Fault Refusal :=
  .next (s.withOut { s.out with rmaxrd := readRmax s.rmax raddr })

end Sys2Proof.Machine
end

