-- ==== Sys2Proof/Machine/Trees.lean ====
section
/-!
DEFINITION. The meanings of the two one-rank trees standing alone: MAX4 (`43_max4.md`) and EXPSUM (`44_expsum.md`). An
operation is one edge: the output port shows the registers of the cycle, then the registers commit (R40, R91).
-/

namespace Sys2Proof.Machine

/-- `Max_Out`: stage 2, from the registers (R181). -/
def maxOut (r : Max4Regs) : Fp16 := fpMax r.rAB r.rCD

/-- The next registers of MAX4; reset overrides (R42, R181). -/
def nextMax4 (reset : Bool) (a b c d : Fp16) : Max4Regs :=
  if reset then .reset else { rAB := fpMax a b, rCD := fpMax c d }

/-- MAX4: one edge (R181). -/
def execMax4 (reset : Bool) (a b c d : Fp16) (s : State) : Host.Outcome State Fault Refusal :=
  .next ((s.withOut { s.out with max4 := maxOut s.max4 }).withMax4 (nextMax4 reset a b c d))

/-- `Sum_Out = (P01 + P23) mod 2^32` (R192). -/
def sumOut (r : ExpsumRegs) : Fixed := r.p01 + r.p23

/-- The next registers of EXPSUM; reset overrides (R42, R192). -/
def nextExpsum (reset : Bool) (vec : PackedVec) : ExpsumRegs :=
  if reset then .reset else partialSums (lanes4 vec)

/-- EXPSUM: one edge (R192). -/
def execExpsum (reset : Bool) (vec : PackedVec) (s : State) : Host.Outcome State Fault Refusal :=
  .next ((s.withOut { s.out with expsum := sumOut s.expsum }).withExpsum (nextExpsum reset vec))

end Sys2Proof.Machine
end

