-- ==== Sys2Proof/Machine/Dispatch.lean ====
section
/-!
DEFINITION. One arm per operation of the table.
-/

namespace Sys2Proof.Machine

def exec (i : Instr) (s : State) : Host.Outcome State Fault Refusal :=
  match i with
  | .fadd a b => Sys2Proof.Machine.execFadd a b s
  | .fsub a b => Sys2Proof.Machine.execFsub a b s
  | .fmul a b => Sys2Proof.Machine.execFmul a b s
  | .fmax a b => Sys2Proof.Machine.execFmax a b s
  | .lod x => Sys2Proof.Machine.execLod x s
  | .log2 x => Sys2Proof.Machine.execLog2 x s
  | .max4 reset a b c d => Sys2Proof.Machine.execMax4 reset a b c d s
  | .expsum reset vec => Sys2Proof.Machine.execExpsum reset vec s
  | .rdiv ky ks thr => Sys2Proof.Machine.execRdiv ky ks thr s
  | .rmaxwr reset we waddr wdata => Sys2Proof.Machine.execRmaxwr reset we waddr wdata s
  | .rmaxrd raddr => Sys2Proof.Machine.execRmaxrd raddr s
  | .pipema reset inValid inAddr gmaxIn inWord => Sys2Proof.Machine.execPipema reset inValid inAddr gmaxIn inWord s
  | .piperp reset stall xIn => Sys2Proof.Machine.execPiperp reset stall xIn s
  | .pipediv reset inValid lmaxIn gmaxIn kyIn ksIn thrIn => Sys2Proof.Machine.execPipediv reset inValid lmaxIn gmaxIn kyIn ksIn thrIn s

end Sys2Proof.Machine
end

