-- ==== Sys2Proof/Machine/Edge.lean ====
section
/-!
DEFINITION. One clock edge with the inputs and wires of one cycle (R40): the wired input ports are settled from the
registers committed at the last edge, all 14 operations are executed, and VEC commits. Units read and write only
their own registers, so executing them one after another is executing them at once (R20, R41; log 19).
-/

namespace Sys2Proof.Machine

/-- A wired port takes its driver's value, an unwired one the record's. -/
def wired {α : Type} (on : Bool) (driver own : α) : α := if on then driver else own

/-- The input ports of one operation after settling: wired ports take what their drivers show in this cycle, from the
registers as committed at the last edge (R32, R40, R41, D16). `raddr` is the read address of the cycle, the record of
RMAXRD, which RMAX and VEC share ("one `raddr` for both", D16). -/
def settleInputs (w : Wires) (raddr : SlotAddr) (s : State) (i : Instr) : Instr :=
  match i with
  | .fadd a b => .fadd a b
  | .fsub a b => .fsub a b
  | .fmul a b => .fmul a b
  | .fmax a b => .fmax a b
  | .lod x => .lod x
  | .log2 x => .log2 x
  | .max4 reset a b c d => .max4 reset a b c d
  | .expsum reset vec => .expsum reset vec
  | .rdiv ky ks thr => .rdiv ky ks thr
  | .rmaxwr reset we waddr wdata =>
    .rmaxwr reset (wired w.maToRmax s.pipema.s2.v we) (wired w.maToRmax s.pipema.s2.addr waddr)
      (wired w.maToRmax (rowMax s.pipema.s2) wdata)
  | .rmaxrd raddr => .rmaxrd raddr
  | .pipema reset inValid inAddr gmaxIn inWord =>
    .pipema reset inValid inAddr (wired w.rmaxToMa s.rmax.gmax gmaxIn) inWord
  | .piperp reset stall xIn => .piperp reset stall (wired w.maToRp s.pipema.acc xIn)
  | .pipediv reset inValid lmaxIn gmaxIn kyIn ksIn thrIn =>
    .pipediv reset inValid
      (wired w.rmaxToDiv (readSlots s.rmax.slot raddr.toNat) lmaxIn)
      (wired w.rmaxToDiv s.rmax.gmax gmaxIn)
      (wired w.vecToDiv (readSlots s.vec raddr.toNat) kyIn)
      (wired w.rpToDiv s.piperp.ks ksIn) (wired w.rpToDiv s.piperp.thr thrIn)

/-- The operations of a cycle with their input ports settled. -/
def settledOps (c : Cycle) (s : State) : List Instr :=
  (presented c).map (settleInputs c.wires c.rmaxrd s)

/-- Executes a list of operations, stopping at the first fault or refusal. -/
def execAll : List Instr → State → Host.Outcome State Fault Refusal
  | [], s => .next s
  | i :: is, s =>
    match exec i s with
    | .next t => execAll is t
    | .fault r => .fault r
    | .refused r => .refused r

/-- The next contents of VEC: cleared by its reset pin, else written from PIPEMA's vector ports when wired and valid
(R73, R231, D16). -/
def nextVec (c : Cycle) (s : State) : Slots :=
  if c.vecReset then []
  else if c.wires.maToVec && s.pipema.s5.v then writeSlots s.vec s.pipema.s5.addr.toNat s.pipema.s5.vec
  else s.vec

/-- One clock edge with the inputs of one cycle, from the registers of `s` (R40). -/
def edge (c : Cycle) (s : State) : Host.Outcome State Fault Refusal :=
  execAll (settledOps c s) (s.withVec (nextVec c s))

/-- What is on the input ports during the next cycle: what the harness drives next, or, when it drives nothing more, what
is on them already (R312, R330; log 2). -/
def nextCycle (s : State) : Cycle := s.stim.headD s.ports

/-- The state as the next cycle begins: its inputs taken from the stimulus and put on the input ports. -/
def beginCycle (s : State) : State := (s.withStim s.stim.tail).withPorts (nextCycle s)

end Sys2Proof.Machine
end

