-- ==== Sys2Proof/Machine/Step.lean ====
section
/-!
DEFINITION. The step: one rising clock edge, at which every unit performs its operation (R22, R40).
-/

namespace Sys2Proof.Machine

/-- One step of the model: put the inputs of the next cycle on the ports and clock every unit. -/
def step (s : State) : Host.Outcome State Fault Refusal := edge (nextCycle s) (beginCycle s)

/-- `s` with a bare table word on the input ports of the first operation it fits in the very next cycle (log 9), every
unit standing alone in that cycle so that no wire overrides the record, and all other ports as they are; a word that
fits no operation leaves `s` as it is. -/
def State.withFetchWord (s : State) (nbits w : Nat) : State :=
  match recordOfTableWord nbits w with
  | none => s
  | some r => s.withStim ({ s.ports with wires := .standalone }.present r :: s.stim)

end Sys2Proof.Machine
end

