-- ==== Sys2Proof/Safety.lean ====
section
/-!
DEFINITION. The terms claims are made in: what a safe outcome is, which part of the state belongs to which operation and
what "nothing else changed" means, the FP16 order and exact rounding as a reader of the rules would state them, the
invariant of the machine, and the harness's duties of `70_reset_and_hazards.md`.
-/

namespace Sys2Proof.Machine

/-! ### Outcomes -/

/-- The only outcome the hardware knows: a next state, here one with a property (R280). -/
def Completes (o : Host.Outcome State Fault Refusal) (P : State → Prop) : Prop := ∃ t, o = .next t ∧ P t

/-! ### What an operation leaves alone -/

/-- The registers and ports of one operation are the same in two states. RMAXRD has ports but no registers, RMAXWR
registers but no ports; `out` is what the ports showed. -/
def SameUnit (op : Op) (s t : State) : Prop :=
  match op with
  | .fadd => t.out.fadd = s.out.fadd
  | .fsub => t.out.fsub = s.out.fsub
  | .fmul => t.out.fmul = s.out.fmul
  | .fmax => t.out.fmax = s.out.fmax
  | .lod => t.out.lod = s.out.lod
  | .log2 => t.out.log2 = s.out.log2
  | .max4 => t.max4 = s.max4 ∧ t.out.max4 = s.out.max4
  | .expsum => t.expsum = s.expsum ∧ t.out.expsum = s.out.expsum
  | .rdiv => t.out.rdiv = s.out.rdiv
  | .rmaxwr => t.rmax.gmax = s.rmax.gmax ∧ ∀ n, readSlots t.rmax.slot n = readSlots s.rmax.slot n
  | .rmaxrd => t.out.rmaxrd = s.out.rmaxrd
  | .pipema => t.pipema = s.pipema ∧ t.out.pipema = s.out.pipema
  | .piperp => t.piperp = s.piperp ∧ t.out.piperp = s.out.piperp
  | .pipediv => t.pipediv = s.pipediv ∧ t.out.pipediv = s.out.pipediv

/-- Everything but one operation's own registers and ports is as before: every other unit's registers and ports, every
slot unless the operation is RMAXWR, every word of VEC, the parameters, the input ports, and the cycles still to
present. -/
def OnlyChanges (op : Op) (s t : State) : Prop :=
  (∀ other, other ≠ op → SameUnit other s t) ∧ (∀ n, readSlots t.vec n = readSlots s.vec n) ∧
  t.cfg = s.cfg ∧ t.ports = s.ports ∧ t.stim = s.stim

/-! ### FP16 order and exact arithmetic -/

/-- The order key of FMAX's total order (R151 (d)): sign 0 above sign 1, the field ascending for sign 0, descending for
sign 1. -/
def orderKey (x : Fp16) : Int :=
  if x.getLsbD 15 then -((x.toNat % 2 ^ 15 : Nat) : Int) - 1 else ((x.toNat % 2 ^ 15 : Nat) : Int)

/-- A nonzero finite operand: no NaN, no infinity, not in the zero class under the parameters (R125 line 9, R140
line 6). -/
def nonzeroFinite (p : Params) (x : Fp16) : Bool := !isNaN x && !isInf x && !isZeroClass p x

/-- The magnitude of a finite code in units of `2^-24` (R82). -/
def magnitudeUnits (x : Fp16) : Nat :=
  if expo x = 0 then (mant x).toNat else (1024 + (mant x).toNat) * 2 ^ ((expo x).toNat - 1)

/-- The value of a finite code in units of `2^-24` (R82). -/
def valueUnits (x : Fp16) : Int := if sign x then -(magnitudeUnits x : Int) else (magnitudeUnits x : Int)

/-- A quotient by `2^q` rounded to nearest, ties to even. -/
def nearestEven (n q : Nat) : Nat :=
  let k := n / 2 ^ q
  let r := n % 2 ^ q
  if 2 ^ q < 2 * r ∨ (2 ^ q = 2 * r ∧ k % 2 = 1) then k + 1 else k

/-- The exact value `± n * 2^(e0 - 25)`, `n` nonzero, rounded to nearest even onto the grid of 11-bit significands with
unbounded exponent, then replaced by signed infinity if its biased exponent is 31 or more and by signed zero if it is 0
or less (R126 (a)). -/
def roundExact (s : Bool) (n : Nat) (e0 : Int) : Fp16 :=
  let l := Nat.log2 n
  let k := if 10 ≤ l then nearestEven n (l - 10) else n * 2 ^ (10 - l)
  let e : Int := e0 + (l : Int) - 10 + (if k = 2048 then 1 else 0)
  if 31 ≤ e then packFp s 31 0
  else if e ≤ 0 then packFp s 0 0
  else packFp s (BitVec.ofInt 5 e) (BitVec.ofNat 10 k)

/-! ### The invariant -/

/-- The code is subnormal in neither sign. -/
def notSub (x : Fp16) : Bool := !isSub x

/-- Partial sums of four codes: each at most 2.0 (R193). -/
def partialsBounded (r : ExpsumRegs) : Bool := decide (r.p01.toNat ≤ 0x20000) && decide (r.p23.toNat ≤ 0x20000)

/-- `S5` holds the partial sums of the vector it holds, or is as reset left it (R230). -/
def stageS5Consistent (r : StageS5) : Bool :=
  decide (partialSums (lanes4 r.vec) = ⟨r.p01, r.p23⟩) || decide (r.vec = 0 ∧ r.p01 = 0 ∧ r.p23 = 0)

/-- The state's invariant: the memories are canonical (log 6), the parameters legal (R9), `GMAX` never below its reset
value in the FMAX order (R214 (a)), EXPSUM's partial sums at most 2.0 (R193), `S2`'s pair maxima those of its own lanes
(R223), no subnormal among the differences (R93), `S5`'s partial sums those of its own vector (R230), the threshold
PIPERP holds one of the literals or the reset pair (R87), and PIPEDIV's sums at most 30 (R262). -/
def State.inv (s : State) : Bool :=
  Memory.wf s.rmax.slot && Memory.wf s.vec && s.cfg.wf &&
  decide (orderKey gmaxReset ≤ orderKey s.rmax.gmax) &&
  partialsBounded s.expsum &&
  decide (s.pipema.s2.rAB = fpMax s.pipema.s2.lane.l0 s.pipema.s2.lane.l1) &&
  decide (s.pipema.s2.rCD = fpMax s.pipema.s2.lane.l2 s.pipema.s2.lane.l3) &&
  s.pipema.s3.diff.all notSub && notSub s.pipema.s3.diff4 &&
  stageS5Consistent s.pipema.s5 &&
  (decide (s.piperp = .reset) || decide (s.piperp.thr = s.cfg.thrF1) || decide (s.piperp.thr = s.cfg.thrF0)) &&
  notSub s.pipediv.t1.diff &&
  s.pipediv.t3.sum.all (fun x => decide (x.toNat ≤ 30))

/-! ### Rows presented to the pipelines -/

/-- The input ports of PIPEMA but for `reset`, which is 0. -/
structure MaInput where
  inValid : Bool
  inAddr : SlotAddr
  gmaxIn : Fp16
  inWord : RowWord
deriving DecidableEq, Repr

/-- PIPEMA's operation on such inputs. -/
def MaInput.op (x : MaInput) : Instr := .pipema false x.inValid x.inAddr x.gmaxIn x.inWord

/-- Lane `i` of the row word (R84). -/
def MaInput.lane (x : MaInput) (i : Nat) : Fp16 := x.inWord.extractLsb' (16 * i) 16

/-- The row's maximum `M` (R224). -/
def MaInput.max (x : MaInput) : Fp16 := fpMax (fpMax (x.lane 0) (x.lane 1)) (fpMax (x.lane 2) (x.lane 3))

/-- The code of lane `i`: the log2 code of lane minus maximum (R227, R229). -/
def MaInput.code (p : Params) (x : MaInput) (i : Nat) : Nat := (log2Code (fpSub p (x.lane i) x.max)).toNat

/-- The input ports of PIPEDIV but for `reset`, which is 0. -/
structure DivInput where
  inValid : Bool
  lmaxIn : Fp16
  gmaxIn : Fp16
  kyIn : PackedVec
  ksIn : Code
  thrIn : Fp16
deriving DecidableEq, Repr

/-- PIPEDIV's operation on such inputs. -/
def DivInput.op (x : DivInput) : Instr := .pipediv false x.inValid x.lmaxIn x.gmaxIn x.kyIn x.ksIn x.thrIn

/-! ### The harness's duties -/

/-- The reset pins of a cycle: MAX4, EXPSUM, RMAX, PIPEMA, PIPERP, PIPEDIV. -/
def resetPins (c : Cycle) : List Bool :=
  [c.max4.getLsbD 64, c.expsum.getLsbD 16, c.rmaxwr.getLsbD 27, c.pipema.getLsbD 91, c.piperp.getLsbD 33,
   c.pipediv.getLsbD 69]

/-- A cycle of the first pass: PIPEMA gets the row, RMAX is not reset, and the connections the source fixes are made, so
that the write ports of RMAX are wired to PIPEMA (R32). What is on the other ports is free. -/
def rowCycle (x : MaInput) (others : Cycle) : Cycle :=
  ({ others with wires := .fixed }.give x.op).give (.rmaxwr false false 0 0)

/-- A cycle that resets PIPEMA and RMAX together (R315, R316). What is on the other ports is free. -/
def firstPassReset (others : Cycle) : Cycle :=
  ({ others with wires := .fixed }.give (.pipema true false 0 0 0)).give (.rmaxwr true false 0 0)

/-- A cycle without a row (R30). -/
def bubble : MaInput := { inValid := false, inAddr := 0, gmaxIn := 0, inWord := 0 }

/-- The first pass over a set of rows, each with what is on the other ports in its cycle: a reset cycle, one row per
cycle, and the two cycles after which the maximum of the last row is in its slot (R235). -/
def firstPass (rows : List (MaInput × Cycle)) (first last1 last2 : Cycle) : List Cycle :=
  firstPassReset first :: (rows.map (fun r => rowCycle r.1 r.2) ++ [rowCycle bubble last1, rowCycle bubble last2])

/-- Duty 4 (R318): each row of a set has its own slot. -/
def OneSlotPerRow (rows : List MaInput) : Prop := ((rows.filter (·.inValid)).map (·.inAddr)).Nodup

end Sys2Proof.Machine
end

