-- ==== Sys2Proof/Certificates/Slice0/Obligations.lean ====
section
/-!
DEFINITION. The statements for the provers. A statement about an operation says that it completes, with what result, and
that it changes nothing else (`OnlyChanges`: every other unit's registers and ports, every slot, every word of VEC, the
parameters, the input ports and the stimulus). Every statement holds in every state, the unspecified ones before the
first reset among them (R44), but where a premise says otherwise.
-/

open Sys2Proof Sys2Proof.Machine

/-! ### Records -/

/-- The decoder reads back every instruction the encoder writes, with every operand at every value (R88, R89, R92). The
numbering of a record's bits as one number is the model's (log 18). -/
def Obligations.DecodeOfEncodeIsIdentity : Prop :=
  ∀ i : Instr, decode (encode i) = .ok i

/-- Every record that fits its operation's width decodes to an instruction of that operation and is that instruction's
record (R92); a wider number is refused by name, which is the model's choice (log 18). -/
def Obligations.FittingRecordsDecodeAndReencode : Prop :=
  ∀ r : Record,
    (r.wf = true → ∃ i, decode r = .ok i ∧ i.op = r.op ∧ encode i = r) ∧
    (r.wf = false → decode r = .error .recordTooWide)

/-- A record is the concatenation of the ports in the order of the table, first port in the most significant bits: each
port's weight is the one its `lo` bit in the table gives it; and the widths of the 14 records (R88). -/
def Obligations.RecordConcatenatesPorts : Prop :=
  Op.all.map Op.width = [32, 32, 32, 32, 32, 16, 65, 17, 24, 28, 10, 92, 34, 70] ∧
  (∀ a b, (encode (.fadd a b)).bits = a.toNat * 2 ^ 16 + b.toNat) ∧
  (∀ a b, (encode (.fsub a b)).bits = a.toNat * 2 ^ 16 + b.toNat) ∧
  (∀ a b, (encode (.fmul a b)).bits = a.toNat * 2 ^ 16 + b.toNat) ∧
  (∀ a b, (encode (.fmax a b)).bits = a.toNat * 2 ^ 16 + b.toNat) ∧
  (∀ x, (encode (.lod x)).bits = x.toNat) ∧
  (∀ x, (encode (.log2 x)).bits = x.toNat) ∧
  (∀ r a b c d, (encode (.max4 r a b c d)).bits =
    r.toNat * 2 ^ 64 + a.toNat * 2 ^ 48 + b.toNat * 2 ^ 32 + c.toNat * 2 ^ 16 + d.toNat) ∧
  (∀ r v, (encode (.expsum r v)).bits = r.toNat * 2 ^ 16 + v.toNat) ∧
  (∀ ky ks thr, (encode (.rdiv ky ks thr)).bits = ky.toNat * 2 ^ 20 + ks.toNat * 2 ^ 16 + thr.toNat) ∧
  (∀ r we wa wd, (encode (.rmaxwr r we wa wd)).bits =
    r.toNat * 2 ^ 27 + we.toNat * 2 ^ 26 + wa.toNat * 2 ^ 16 + wd.toNat) ∧
  (∀ ra, (encode (.rmaxrd ra)).bits = ra.toNat) ∧
  (∀ r v n g w, (encode (.pipema r v n g w)).bits =
    r.toNat * 2 ^ 91 + v.toNat * 2 ^ 90 + n.toNat * 2 ^ 80 + g.toNat * 2 ^ 64 + w.toNat) ∧
  (∀ r st x, (encode (.piperp r st x)).bits = r.toNat * 2 ^ 33 + st.toNat * 2 ^ 32 + x.toNat) ∧
  (∀ r v l g k ks t, (encode (.pipediv r v l g k ks t)).bits =
    r.toNat * 2 ^ 69 + v.toNat * 2 ^ 68 + l.toNat * 2 ^ 52 + g.toNat * 2 ^ 36 + k.toNat * 2 ^ 20 + ks.toNat * 2 ^ 16 +
      t.toNat)

/-- Records written out in the programs of `95_test_vectors.md` decode to the operations their lines give. -/
def Obligations.SpecWordsDecode : Prop :=
  decode ⟨.max4, 0x03C0040003800C200⟩ = .ok (.max4 false 0x3C00#16 0x4000#16 0x3800#16 0xC200#16) ∧
  decode ⟨.expsum, 0x07201⟩ = .ok (.expsum false 0x7201#16) ∧
  decode ⟨.rmaxwr, 0x405C000⟩ = .ok (.rmaxwr false true 5#10 0xC000#16) ∧
  decode ⟨.pipema, 0x407FBFFC200380040003C00⟩ = .ok (.pipema false true 7#10 0xFBFF#16 0xC200380040003C00#64) ∧
  decode ⟨.piperp, 0x300033100⟩ = .ok (.piperp true true 0x00033100#32) ∧
  decode ⟨.pipediv, 0x140004200720113A8B⟩ =
    .ok (.pipediv false true 0x4000#16 0x4200#16 0x7201#16 1#4 0x3A8B#16)

/-! ### The step -/

/-- The step runs the decoded records: whatever inputs the next cycle has, the record on each operation's ports decodes to
an instruction, and the step leaves that operation's unit as the instruction leaves it when executed on the state before,
its wired ports settled; with every unit standing alone no port is wired (R22, R40, R88, R91). Around the operations the
step takes the cycle off the stimulus, keeps it on the input ports and commits VEC (logs 2, 7, 8). -/
def Obligations.StepRunsPresentedRecord : Prop :=
  ∀ (s : State) (c : Cycle) (rest : List Cycle) (op : Op), s.stim = c :: rest →
    ∃ i u t, decode (c.record op) = .ok i ∧ i.op = op ∧ exec (settleInputs c.wires c.rmaxrd s i) s = .next u ∧
      (c.wires = .standalone → settleInputs c.wires c.rmaxrd s i = i) ∧
      step s = .next t ∧ SameUnit op u t ∧
      t.cfg = s.cfg ∧ t.vec = nextVec c s ∧ t.ports = c ∧ t.stim = rest

/-- The step and every operation answer a next state, from every state and for every input: no fault, no stuck state, no
refusal (R280). -/
def Obligations.StepAlwaysAnswersNextState : Prop :=
  (∀ s : State, ∃ t, step s = .next t) ∧ ∀ (i : Instr) (s : State), ∃ t, exec i s = .next t

/-- One edge commits all units at once: whatever is on the input ports and however they are wired, every operation is
performed, and leaves its unit as it leaves it when executed alone on the registers of the last edge with its input ports
settled from them (R22, R40, R46). The settled ports are the model's wires (log 7), `nextVec` its VEC (log 8). -/
def Obligations.EdgeCommitsAllUnitsAtOnce : Prop :=
  ∀ (c : Cycle) (s : State), Completes (edge c s) fun t =>
    t.cfg = s.cfg ∧ t.ports = s.ports ∧ t.stim = s.stim ∧ t.vec = nextVec c s ∧
    ∀ op, ∃ i ∈ settledOps c s, i.op = op ∧ ∃ u, exec i s = .next u ∧ SameUnit op u t

/-- Every step keeps the machine's invariant, from every state that has it (R27, R28, R29, R93, R193, R214, R262). -/
def Obligations.StepKeepsMachineInvariant : Prop :=
  ∀ s t : State, s.inv = true → step s = .next t → t.inv = true

/-- The reset state has the invariant. -/
def Obligations.ResetStateHasMachineInvariant : Prop := State.reset.inv = true

/-- With no cycle left to present, the step is an ordinary edge on what is on the input ports already: every unit performs
its operation (R22, R312). That the ports keep their values is the model's choice (log 2). -/
def Obligations.EmptyStimulusClocksHeldPorts : Prop :=
  ∀ s : State, s.stim = [] → step s = step (s.withStim [s.ports]) ∧
    Completes (step s) fun t => t.ports = s.ports ∧ t.stim = [] ∧
      t.expsum = nextExpsum (s.ports.expsum.getLsbD 16) (s.ports.expsum.extractLsb' 0 16) ∧
      (s.ports.pipema.getLsbD 91 = false → t.pipema.s2 = nextS2 s.pipema.s1 ∧ t.pipema.s5 = nextS5 s.pipema.s4 ∧
        t.pipema.acc = nextAcc s.pipema.s5 s.pipema.acc)

/-- Nothing but reset and stall alters the advance: at every step, whatever is left of the stimulus, every rank of PIPEMA
and PIPEDIV takes its next value, whole, unless the unit is reset, MAX4 and EXPSUM commit unless reset, and PIPERP holds
only under stall (R22, R43, R287, R295, R312, R327). The ports that `S3`, PIPERP, `T1` and `T4` read beside the rank
before them are settled by the model's wires (log 7), `T1`'s `ky` from the model's VEC where it is wired (log 8), and
after the end of the stimulus the ports hold their values (log 2). -/
def Obligations.EveryRankAdvancesAtEveryStep : Prop :=
  ∀ s : State, Completes (step s) fun t =>
    let c := nextCycle s
    (c.pipema.getLsbD 91 = false →
      t.pipema.s1 = nextS1 (c.pipema.getLsbD 90) (c.pipema.extractLsb' 80 10) (c.pipema.extractLsb' 0 64) ∧
      t.pipema.s2 = nextS2 s.pipema.s1 ∧
      t.pipema.s3 =
        nextS3 s.cfg (wired c.wires.rmaxToMa s.rmax.gmax (c.pipema.extractLsb' 64 16)) s.pipema.s2 ∧
      t.pipema.s4 = nextS4 s.pipema.s3 ∧ t.pipema.s5 = nextS5 s.pipema.s4 ∧
      t.pipema.acc = nextAcc s.pipema.s5 s.pipema.acc) ∧
    (c.pipediv.getLsbD 69 = false →
      t.pipediv.t1 = nextT1 s.cfg (c.pipediv.getLsbD 68)
        (wired c.wires.rmaxToDiv (readSlots s.rmax.slot c.rmaxrd.toNat) (c.pipediv.extractLsb' 52 16))
        (wired c.wires.rmaxToDiv s.rmax.gmax (c.pipediv.extractLsb' 36 16))
        (wired c.wires.vecToDiv (readSlots s.vec c.rmaxrd.toNat) (c.pipediv.extractLsb' 20 16)) ∧
      t.pipediv.t2 = nextT2 s.pipediv.t1 ∧ t.pipediv.t3 = nextT3 s.pipediv.t2 ∧
      t.pipediv.t4 = nextT4 (wired c.wires.rpToDiv s.piperp.ks (c.pipediv.extractLsb' 16 4))
        (wired c.wires.rpToDiv s.piperp.thr (c.pipediv.extractLsb' 0 16)) s.pipediv.t3 ∧
      t.pipediv.t5 = nextT5 s.pipediv.t4) ∧
    (c.max4.getLsbD 64 = false → t.max4.rAB = fpMax (c.max4.extractLsb' 48 16) (c.max4.extractLsb' 32 16) ∧
      t.max4.rCD = fpMax (c.max4.extractLsb' 16 16) (c.max4.extractLsb' 0 16)) ∧
    (c.expsum.getLsbD 16 = false → t.expsum = partialSums (lanes4 (c.expsum.extractLsb' 0 16))) ∧
    (c.piperp.getLsbD 33 = false → c.piperp.getLsbD 32 = true → t.piperp = s.piperp) ∧
    (c.piperp.getLsbD 33 = false → c.piperp.getLsbD 32 = false →
      t.piperp.ks = (leadingOneThreshold s.cfg (wired c.wires.maToRp s.pipema.acc (c.piperp.extractLsb' 0 32))).pos ∧
      t.piperp.thr = (leadingOneThreshold s.cfg (wired c.wires.maToRp s.pipema.acc (c.piperp.extractLsb' 0 32))).thr)

/-- After reset the hardware does at once what it always does: one edge on, unless PIPEMA is reset again, `S5` holds the
partial sums of four codes 0, and neither `ACC` nor a valid bit beyond `S1` has moved (R312, R234). -/
def Obligations.FirstEdgeAfterResetComputesZeroRecord : Prop :=
  ∀ c : Cycle, c.pipema.getLsbD 91 = false → Completes (edge c State.reset) fun t =>
    t.pipema.s5.p01 = 0x00020000#32 ∧ t.pipema.s5.p23 = 0x00020000#32 ∧ t.pipema.s5.vec = 0x0000#16 ∧
    t.pipema.acc = 0x00000000#32 ∧ t.pipema.s2.v = false ∧ t.pipema.s5.v = false

/-- In every cycle every output port is driven (R31, R40): the ports that show registers show the registers committed at the
last edge, whatever is on the input ports, and the combinational ones the function of their own inputs. -/
def Obligations.EveryOutputPortIsDrivenAtEveryStep : Prop :=
  ∀ s : State, Completes (step s) fun t =>
    let c := nextCycle s
    t.out.max4 = fpMax s.max4.rAB s.max4.rCD ∧ t.out.expsum = s.expsum.p01 + s.expsum.p23 ∧
    t.out.rmaxrd = { rdata := readSlots s.rmax.slot c.rmaxrd.toNat, gmax := s.rmax.gmax } ∧
    t.out.pipema =
      { maxValid := s.pipema.s2.v, maxAddr := s.pipema.s2.addr, maxData := fpMax s.pipema.s2.rAB s.pipema.s2.rCD
        vecValid := s.pipema.s5.v, vecAddr := s.pipema.s5.addr, vecOut := s.pipema.s5.vec, accOut := s.pipema.acc } ∧
    t.out.piperp = { ksOut := s.piperp.ks, thrOut := s.piperp.thr } ∧
    t.out.pipediv = { outValid := s.pipediv.t5.v, outWord := s.pipediv.t5.out } ∧
    t.out.fadd = fpAdd s.cfg (c.fadd.extractLsb' 16 16) (c.fadd.extractLsb' 0 16) ∧
    t.out.fsub = fpSub s.cfg (c.fsub.extractLsb' 16 16) (c.fsub.extractLsb' 0 16) ∧
    t.out.fmul = fpMul s.cfg (c.fmul.extractLsb' 16 16) (c.fmul.extractLsb' 0 16) ∧
    t.out.fmax = fpMax (c.fmax.extractLsb' 16 16) (c.fmax.extractLsb' 0 16) ∧
    t.out.lod = leadingOneThreshold s.cfg c.lod ∧ t.out.log2 = log2Code c.log2 ∧
    t.out.rdiv = approxDivide (c.rdiv.extractLsb' 20 4).toNat (c.rdiv.extractLsb' 16 4).toNat (c.rdiv.extractLsb' 0 16)

/-- Each operation writes only its own unit's registers and ports, whatever its inputs: no other unit's registers, no
slot unless it is RMAXWR, no word of VEC, no parameter, no input port (R20, R25, R288). -/
def Obligations.OperationsChangeOnlyTheirUnit : Prop :=
  ∀ (i : Instr) (s t : State), exec i s = .next t → OnlyChanges i.op s t

/-- What an operation leaves in its unit depends on nothing but its inputs, the parameters and its own unit's registers,
for RMAXRD those of RMAX (R20): two states that agree there agree there after it, however they differ elsewhere. -/
def Obligations.OperationsReadOnlyTheirUnit : Prop :=
  ∀ (i : Instr) (s u : State), Memory.wf s.rmax.slot = true → Memory.wf u.rmax.slot = true →
    u.cfg = s.cfg → SameUnit i.op s u → (i.op = .rmaxrd → SameUnit .rmaxwr s u) →
    ∃ t v, exec i s = .next t ∧ exec i u = .next v ∧ SameUnit i.op t v

/-! ### The FP16 kernel -/

/-- FADD on special operands, in the order of R125 lines 1 to 8: NaN propagation (R112), the generated NaN (R113),
infinities, zero-class operands (R111). -/
def Obligations.FaddSpecialOperands : Prop :=
  ∀ (a b : Fp16) (s : State), Completes (exec (.fadd a b) s) fun t =>
    let y := t.out.fadd
    OnlyChanges .fadd s t ∧
      (isNaN a → y = a) ∧
      (¬ isNaN a → isNaN b → y = b) ∧
      (isInf a → isInf b → sign a ≠ sign b → y = packFp (sign a) 31 s.cfg.nanMant) ∧
      (isInf a → ¬ isNaN b → (isInf b → sign a = sign b) → y = a) ∧
      (¬ isNaN a → ¬ isInf a → isInf b → y = b) ∧
      (isZeroClass s.cfg a → isZeroClass s.cfg b → y = packFp (sign a && sign b) 0 0) ∧
      (isZeroClass s.cfg a → nonzeroFinite s.cfg b → y = if isNorm b then b else packFp (sign b) 0 0) ∧
      (nonzeroFinite s.cfg a → isZeroClass s.cfg b → y = if isNorm a then a else packFp (sign a) 0 0)

/-- FADD of two nonzero finite operands is the exact sum of their values rounded to nearest even, saturated to infinity
and flushed to zero; an exactly zero sum is `0x0000` (R126 (a), which the spec's author checked but did not prove). Stated
for either subnormal policy: under `NORMALIZE` it covers subnormal operands too (R117). -/
def Obligations.FaddRoundsExactSum : Prop :=
  ∀ (a b : Fp16) (s : State), nonzeroFinite s.cfg a = true → nonzeroFinite s.cfg b = true →
    Completes (exec (.fadd a b) s) fun t =>
      OnlyChanges .fadd s t ∧
      t.out.fadd =
        (if valueUnits a + valueUnits b = 0 then 0x0000#16
         else roundExact (decide (valueUnits a + valueUnits b < 0)) (valueUnits a + valueUnits b).natAbs 1)

/-- FADD commutes but for two NaNs and infinities of opposite signs (R126 (b)). -/
def Obligations.FaddCommutes : Prop :=
  ∀ (a b : Fp16) (s : State), ¬ (isNaN a ∧ isNaN b) → ¬ (isInf a ∧ isInf b ∧ sign a ≠ sign b) →
    ∃ t u, exec (.fadd a b) s = .next t ∧ exec (.fadd b a) s = .next u ∧ t.out.fadd = u.out.fadd

/-- FSUB is FADD of its first operand and its second with bit 15 flipped, for every class of operand (R130). -/
def Obligations.FsubAddsFlippedOperand : Prop :=
  ∀ (a b : Fp16) (s : State), Completes (exec (.fsub a b) s) fun t =>
    OnlyChanges .fsub s t ∧
    ∃ u, exec (.fadd a (b ^^^ 0x8000#16)) s = .next u ∧ t.out.fsub = u.out.fadd

/-- A normal operand plus its opposite is +0 ("for all valid FP16 bit patterns `x` representing normal numbers"), so a
normal operand minus itself is +0; an infinity minus itself is the generated NaN of its sign and a zero minus itself
+0 (R125, R131 (b)). -/
def Obligations.OppositeOperandsCancel : Prop :=
  ∀ (x : Fp16) (s : State),
    (isNorm x → Completes (exec (.fadd x (x ^^^ 0x8000#16)) s) fun t => t.out.fadd = 0x0000#16) ∧
    (isNorm x → Completes (exec (.fsub x x) s) fun t => t.out.fsub = 0x0000#16) ∧
    (isInf x → Completes (exec (.fsub x x) s) fun t => t.out.fsub = packFp (sign x) 31 s.cfg.nanMant) ∧
    (isZero x → Completes (exec (.fsub x x) s) fun t => t.out.fsub = 0x0000#16)

/-- FMUL on special operands, R140 lines 1 to 5: NaN propagation, zero times infinity, infinities and zero-class operands
with the exclusive or of the signs. -/
def Obligations.FmulSpecialOperands : Prop :=
  ∀ (a b : Fp16) (s : State), Completes (exec (.fmul a b) s) fun t =>
    let y := t.out.fmul
    OnlyChanges .fmul s t ∧
      (isNaN a → y = a) ∧
      (¬ isNaN a → isNaN b → y = b) ∧
      (isInf a → isZeroClass s.cfg b → y = packFp (sign a != sign b) 31 s.cfg.nanMant) ∧
      (isZeroClass s.cfg a → isInf b → y = packFp (sign a != sign b) 31 s.cfg.nanMant) ∧
      (isInf a → (isInf b ∨ nonzeroFinite s.cfg b) → y = packFp (sign a != sign b) 31 0) ∧
      (nonzeroFinite s.cfg a → isInf b → y = packFp (sign a != sign b) 31 0) ∧
      (isZeroClass s.cfg a → (isZeroClass s.cfg b ∨ nonzeroFinite s.cfg b) → y = packFp (sign a != sign b) 0 0) ∧
      (nonzeroFinite s.cfg a → isZeroClass s.cfg b → y = packFp (sign a != sign b) 0 0)

/-- FMUL of two nonzero finite operands is the exact product of their values rounded to nearest even, saturated to
infinity and flushed to zero, with the exclusive or of the signs (R141 (a), which the spec's author checked but did not
prove). -/
def Obligations.FmulRoundsExactProduct : Prop :=
  ∀ (a b : Fp16) (s : State), nonzeroFinite s.cfg a = true → nonzeroFinite s.cfg b = true →
    Completes (exec (.fmul a b) s) fun t =>
      OnlyChanges .fmul s t ∧
      t.out.fmul = roundExact (sign a != sign b) (magnitudeUnits a * magnitudeUnits b) (-23)

/-- FMUL commutes but for two NaNs (R141 (b)). -/
def Obligations.FmulCommutes : Prop :=
  ∀ (a b : Fp16) (s : State), ¬ (isNaN a ∧ isNaN b) →
    ∃ t u, exec (.fmul a b) s = .next t ∧ exec (.fmul b a) s = .next u ∧ t.out.fmul = u.out.fmul

/-- FADD, FSUB and FMUL never return a subnormal code, under either policy (R93, R123). -/
def Obligations.KernelNeverReturnsSubnormal : Prop :=
  ∀ (a b : Fp16) (s : State),
    (Completes (exec (.fadd a b) s) fun t => isSub t.out.fadd = false) ∧
    (Completes (exec (.fsub a b) s) fun t => isSub t.out.fsub = false) ∧
    (Completes (exec (.fmul a b) s) fun t => isSub t.out.fmul = false)

/-- FMAX returns one of its operands unchanged, and neither operand is above it in the total order of codes: sign 0 above
sign 1, the 15-bit field ascending for sign 0 and descending for sign 1 (R150). -/
def Obligations.FmaxIsGreaterInCodeOrder : Prop :=
  ∀ (a b : Fp16) (s : State), Completes (exec (.fmax a b) s) fun t =>
    let y := t.out.fmax
    OnlyChanges .fmax s t ∧ (y = a ∨ y = b) ∧
      orderKey a ≤ orderKey y ∧ orderKey b ≤ orderKey y

/-- FMAX is commutative, associative and idempotent on all codes (R151 (d)). -/
def Obligations.FmaxCommutesAssociatesRepeats : Prop :=
  (∀ a b : Fp16, fpMax a b = fpMax b a) ∧
  (∀ a b c : Fp16, fpMax (fpMax a b) c = fpMax a (fpMax b c)) ∧
  (∀ a : Fp16, fpMax a a = a)

/-! ### The lookup units -/

/-- LOD answers the index of the highest set bit of `x[31:16]`, 0 if none is set, the bit of `x` just below it
(`x[15]` when the index is 0), and the literal that bit selects (R161). -/
def Obligations.LodFindsLeadingOne : Prop :=
  ∀ (x : Fixed) (s : State), Completes (exec (.lod x) s) fun t =>
    let o := t.out.lod
    OnlyChanges .lod s t ∧
      (x.toNat / 2 ^ 16 = 0 → o.pos = 0) ∧
      (x.toNat / 2 ^ 16 ≠ 0 → x.getLsbD (16 + o.pos.toNat) = true ∧
        ∀ j, o.pos.toNat < j → j < 16 → x.getLsbD (16 + j) = false) ∧
      o.flag = x.getLsbD (15 + o.pos.toNat) ∧
      o.thr = if o.flag then s.cfg.thrF1 else s.cfg.thrF0

/-- LOG2 answers 0 for an exponent field up to 13, 15 from 19 on, and between them the integer part of 23/16 of the
magnitude cut to five significant bits, at most 15: `min(15, floor(23 * w * 2^(E-15) / 256))` with `w` the window
`{1, mant[9:6]}` (R174). -/
def Obligations.Log2FollowsClosedForm : Prop :=
  ∀ (x : Fp16) (s : State), Completes (exec (.log2 x) s) fun t =>
    let y := t.out.log2
    OnlyChanges .log2 s t ∧
      y.toNat =
        if x.toNat / 1024 % 32 ≤ 13 then 0
        else if 19 ≤ x.toNat / 1024 % 32 then 15
        else min 15 (23 * (16 + x.toNat / 64 % 16) * 2 ^ (x.toNat / 1024 % 32 - 14) / 512)

/-- LOG2 ignores the sign and the six low mantissa bits, and its code never falls as the 15-bit field rises
(R176 (c), (d), (e)). -/
def Obligations.Log2IgnoresSignAndIsMonotone : Prop :=
  (∀ x : Fp16, log2Code (x ^^^ 0x8000#16) = log2Code x) ∧
  (∀ x : Fp16, log2Code (x ||| 0x003F#16) = log2Code x) ∧
  (∀ x y : Fp16, x.toNat % 2 ^ 15 ≤ y.toNat % 2 ^ 15 → (log2Code x).toNat ≤ (log2Code y).toNat)

/-- RDIV passes sign and mantissa of the threshold through and subtracts `ky + ks` from its exponent field, not below 0
(the upper bound of the clamp never acts, R202 (a)); the divider inside PIPEDIV does the same with a 5-bit `ky` (R201). -/
def Obligations.RdivSubtractsFromExponent : Prop :=
  (∀ (ky ks : Code) (thr : Fp16) (s : State), Completes (exec (.rdiv ky ks thr) s) fun t =>
    let q := t.out.rdiv
    OnlyChanges .rdiv s t ∧
      sign q = sign thr ∧ mant q = mant thr ∧ (expo q).toNat = (expo thr).toNat - (ky.toNat + ks.toNat)) ∧
  (∀ (ky : BitVec 5) (ks : Code) (thr : Fp16),
    sign (approxDivide ky.toNat ks.toNat thr) = sign thr ∧ mant (approxDivide ky.toNat ks.toNat thr) = mant thr ∧
    (expo (approxDivide ky.toNat ks.toNat thr)).toNat = (expo thr).toNat - (ky.toNat + ks.toNat))

/-- For a fixed threshold a greater right shift never gives a greater exponent, which stays in 0 to 31, for the 4-bit
`ky` and the 5-bit one inside PIPEDIV (R202 (b), R262). -/
def Obligations.RdivNeverRaisesExponent : Prop :=
  ∀ (ky ks ky' ks' : Nat) (thr : Fp16), ky + ks ≤ ky' + ks' →
    (expo (approxDivide ky' ks' thr)).toNat ≤ (expo (approxDivide ky ks thr)).toNat

/-! ### The trees -/

/-- MAX4 shows the maximum of its two registers and commits the pair maxima, or zeros on reset (R181). -/
def Obligations.Max4CommitsPairMaxima : Prop :=
  ∀ (reset : Bool) (a b c d : Fp16) (s : State), Completes (exec (.max4 reset a b c d) s) fun t =>
    OnlyChanges .max4 s t ∧ t.out.max4 = fpMax s.max4.rAB s.max4.rCD ∧
    t.max4.rAB = (if reset then 0x0000#16 else fpMax a b) ∧ t.max4.rCD = (if reset then 0x0000#16 else fpMax c d)

/-- One edge later MAX4 shows one of the four inputs, and none of them is above it; after a reset it shows 0x0000
(R182, R183 (a), (c)). -/
def Obligations.Max4ShowsRowMaximumNextCycle : Prop :=
  ∀ (a b c d a' b' c' d' : Fp16) (reset' : Bool) (s : State),
    (Completes (execAll [.max4 false a b c d, .max4 reset' a' b' c' d'] s) fun t =>
      let y := t.out.max4
      y ∈ [a, b, c, d] ∧ ∀ z ∈ [a, b, c, d], orderKey z ≤ orderKey y) ∧
    (Completes (execAll [.max4 true a b c d, .max4 reset' a' b' c' d'] s) fun t => t.out.max4 = 0x0000#16)

/-- EXPSUM shows the sum of its two registers and commits the partial sums of lanes 0 and 1 and of lanes 2 and 3, or
zeros on reset (R192, R191). -/
def Obligations.ExpsumCommitsPartialSums : Prop :=
  ∀ (reset : Bool) (vec : PackedVec) (s : State), Completes (exec (.expsum reset vec) s) fun t =>
    OnlyChanges .expsum s t ∧ t.out.expsum = s.expsum.p01 + s.expsum.p23 ∧
    t.expsum.p01 = (if reset then 0#32 else
      (0x00010000#32 >>> (vec.extractLsb' 0 4).toNat) + (0x00010000#32 >>> (vec.extractLsb' 4 4).toNat)) ∧
    t.expsum.p23 = (if reset then 0#32 else
      (0x00010000#32 >>> (vec.extractLsb' 8 4).toNat) + (0x00010000#32 >>> (vec.extractLsb' 12 4).toNat))

/-- One edge later EXPSUM shows the exact sum of the four powers of two, which lies between 8 and 2^18, so that no add
ever wraps (R193, R194). -/
def Obligations.ExpsumShowsExactSumNextCycle : Prop :=
  ∀ (vec vec' : PackedVec) (reset' : Bool) (s : State),
    Completes (execAll [.expsum false vec, .expsum reset' vec'] s) fun t =>
      let y := t.out.expsum
     y.toNat = 2 ^ (16 - vec.toNat % 16) + 2 ^ (16 - vec.toNat / 16 % 16) + 2 ^ (16 - vec.toNat / 256 % 16) +
          2 ^ (16 - vec.toNat / 4096 % 16) ∧
        8 ≤ y.toNat ∧ y.toNat ≤ 0x00040000

/-! ### The running-maximum state -/

/-- RMAXWR: reset clears every slot and sets `GMAX` to 0xFBFF; else a write replaces one slot, leaves every other slot,
and takes the FMAX of `GMAX` and the value; else nothing changes (R211). -/
def Obligations.RmaxWriteUpdatesSlotAndMaximum : Prop :=
  ∀ (reset we : Bool) (waddr : SlotAddr) (wdata : Fp16) (s : State), Memory.wf s.rmax.slot = true →
    Completes (exec (.rmaxwr reset we waddr wdata) s) fun t =>
      OnlyChanges .rmaxwr s t ∧ t.out = s.out ∧
      (reset = true → t.rmax.gmax = 0xFBFF#16 ∧ ∀ n, readSlots t.rmax.slot n = 0x0000#16) ∧
      (reset = false → we = true → t.rmax.gmax = fpMax s.rmax.gmax wdata ∧
        ∀ n, readSlots t.rmax.slot n = if n = waddr.toNat then wdata else readSlots s.rmax.slot n) ∧
      (reset = false → we = false → t.rmax = s.rmax)

/-- RMAXRD shows the slot and `GMAX` as committed and changes no register (R212, R62). -/
def Obligations.RmaxReadShowsCommittedState : Prop :=
  ∀ (raddr : SlotAddr) (s : State), Completes (exec (.rmaxrd raddr) s) fun t =>
    OnlyChanges .rmaxrd s t ∧
    t.out.rmaxrd = { rdata := readSlots s.rmax.slot raddr.toNat, gmax := s.rmax.gmax }

/-- In a cycle with a write and a read, the read shows the slot as it was before the write; after the edge the slot holds
the value written, every other slot is as before, and on reset the write is lost and every slot is 0x0000 (R63, R323).
What is on the other ports of the cycle is free. -/
def Obligations.SlotReadInWriteCycleShowsOldValue : Prop :=
  ∀ (c : Cycle) (reset we : Bool) (waddr raddr : SlotAddr) (wdata : Fp16) (s : State), Memory.wf s.rmax.slot = true →
    Completes
      (edge (({ c with wires := .standalone }.give (.rmaxwr reset we waddr wdata)).give (.rmaxrd raddr)) s) fun t =>
      t.out.rmaxrd = { rdata := readSlots s.rmax.slot raddr.toNat, gmax := s.rmax.gmax } ∧
      ∀ n, readSlots t.rmax.slot n =
        if reset then 0x0000#16 else if we = true ∧ n = waddr.toNat then wdata else readSlots s.rmax.slot n

/-- After a reset and any writes `GMAX` is the greatest, in the order of codes, of its reset value and every value
written, whichever slots they went to (R214 (a)). -/
def Obligations.GmaxIsGreatestValueWritten : Prop :=
  ∀ (ws : List (SlotAddr × Fp16)) (we : Bool) (waddr : SlotAddr) (wdata : Fp16) (s : State),
    Completes (execAll (.rmaxwr true we waddr wdata :: ws.map fun w => .rmaxwr false true w.1 w.2) s) fun t =>
      (t.rmax.gmax = 0xFBFF#16 ∨ ∃ w ∈ ws, t.rmax.gmax = w.2) ∧
      orderKey 0xFBFF#16 ≤ orderKey t.rmax.gmax ∧ ∀ w ∈ ws, orderKey w.2 ≤ orderKey t.rmax.gmax

/-- Writes to distinct slots are all still there at the end: the harness's duty of one slot per row is enough for every
row to find its own maximum (R318, R69). -/
def Obligations.DistinctSlotsKeepEveryWrite : Prop :=
  ∀ (ws : List (SlotAddr × Fp16)) (s : State), Memory.wf s.rmax.slot = true → (ws.map Prod.fst).Nodup →
    Completes (execAll (ws.map fun w => .rmaxwr false true w.1 w.2) s) fun t =>
      (∀ w ∈ ws, readSlots t.rmax.slot w.1.toNat = w.2) ∧
      ∀ n, (∀ w ∈ ws, w.1.toNat ≠ n) → readSlots t.rmax.slot n = readSlots s.rmax.slot n

/-- Two canonical memories that read the same in every slot are the same data (log 6). -/
def Obligations.EqualReadsMeanEqualMemories : Prop :=
  ∀ m m' : Slots, Memory.wf m = true → Memory.wf m' = true → (∀ n, readSlots m n = readSlots m' n) → m = m'

/-! ### The max-and-accumulate pipeline -/

/-- PIPEMA: one edge, every rank (R221): the ports show the registers; reset clears every field; else each rank takes its
value from the rank before it. -/
def Obligations.PipemaEdgeCommitsEveryRank : Prop :=
  ∀ (reset inValid : Bool) (inAddr : SlotAddr) (gmaxIn : Fp16) (inWord : RowWord) (s : State),
    Completes (exec (.pipema reset inValid inAddr gmaxIn inWord) s) fun t =>
      let r := s.pipema
      let m := fpMax r.s2.rAB r.s2.rCD
      OnlyChanges .pipema s t ∧
      t.out.pipema =
        { maxValid := r.s2.v, maxAddr := r.s2.addr, maxData := m, vecValid := r.s5.v, vecAddr := r.s5.addr
          vecOut := r.s5.vec, accOut := r.acc } ∧
      (reset = true → t.pipema = ⟨⟨false, 0, ⟨0, 0, 0, 0⟩⟩, ⟨false, 0, ⟨0, 0, 0, 0⟩, 0, 0⟩, ⟨false, 0, ⟨0, 0, 0, 0⟩, 0⟩,
        ⟨false, 0, ⟨0, 0, 0, 0⟩, 0⟩, ⟨false, 0, 0, 0, 0, 0⟩, 0⟩) ∧
      (reset = false →
        t.pipema.s1 = ⟨inValid, inAddr, ⟨inWord.extractLsb' 0 16, inWord.extractLsb' 16 16, inWord.extractLsb' 32 16,
          inWord.extractLsb' 48 16⟩⟩ ∧
        t.pipema.s2 = ⟨r.s1.v, r.s1.addr, r.s1.lane, fpMax r.s1.lane.l0 r.s1.lane.l1,
          fpMax r.s1.lane.l2 r.s1.lane.l3⟩ ∧
        t.pipema.s3 = ⟨r.s2.v, r.s2.addr, ⟨fpSub s.cfg r.s2.lane.l0 m, fpSub s.cfg r.s2.lane.l1 m,
          fpSub s.cfg r.s2.lane.l2 m, fpSub s.cfg r.s2.lane.l3 m⟩, fpSub s.cfg m gmaxIn⟩ ∧
        t.pipema.s4 = ⟨r.s3.v, r.s3.addr, ⟨log2Code r.s3.diff.l0, log2Code r.s3.diff.l1, log2Code r.s3.diff.l2,
          log2Code r.s3.diff.l3⟩, log2Code r.s3.diff4⟩ ∧
        t.pipema.s5 = ⟨r.s4.v, r.s4.addr, r.s4.code.l3 ++ r.s4.code.l2 ++ r.s4.code.l1 ++ r.s4.code.l0, r.s4.code4,
          laneVal r.s4.code.l0 + laneVal r.s4.code.l1, laneVal r.s4.code.l2 + laneVal r.s4.code.l3⟩ ∧
        t.pipema.acc = if r.s5.v then (r.acc >>> r.s5.sh.toNat) + (r.s5.p01 + r.s5.p23) else r.acc)

/-- A row presented in cycle `c`, whatever follows it, shows its maximum at the `max` ports in cycle `c+2`, its packed
vector at the `vec` ports in cycle `c+5`, and is folded into `ACC` at edge `c+6` if it was valid: the accumulator shifted
right by the code of its maximum minus the `gmax_in` of cycle `c+2`, plus the powers of two of its four codes
(R225 to R233, R235). -/
def Obligations.PipemaRowReachesItsPorts : Prop :=
  ∀ (row x1 x2 x3 x4 x5 : MaInput) (s : State),
    (Completes (execAll [row.op, x1.op, x2.op] s) fun t =>
      let o := t.out.pipema
      o.maxValid = row.inValid ∧ o.maxAddr = row.inAddr ∧ o.maxData = row.max) ∧
    (Completes (execAll [row.op, x1.op, x2.op, x3.op, x4.op, x5.op] s) fun t =>
      let o := t.out.pipema
      o.vecValid = row.inValid ∧ o.vecAddr = row.inAddr ∧
        o.vecOut.toNat = row.code s.cfg 0 + 16 * row.code s.cfg 1 + 256 * row.code s.cfg 2 + 4096 * row.code s.cfg 3 ∧
        t.pipema.acc.toNat =
          if row.inValid then
            (o.accOut.toNat / 2 ^ (log2Code (fpSub s.cfg row.max x2.gmaxIn)).toNat +
              (2 ^ (16 - row.code s.cfg 0) + 2 ^ (16 - row.code s.cfg 1) + 2 ^ (16 - row.code s.cfg 2) +
                2 ^ (16 - row.code s.cfg 3))) % 2 ^ 32
          else o.accOut.toNat)

/-- From a zero accumulator and a bounded `S5`, as a reset leaves them, `ACC` grows by at most 0x00040000 per edge, and at
none of the first 16,383 edges does the addition wrap: a valid row leaves `ACC` at the shifted accumulator plus the
partial sums as natural numbers, without the modulus (R232). -/
def Obligations.AccumulatorNeverWraps : Prop :=
  ∀ (xs : List MaInput) (x : MaInput) (s : State), xs.length < 16383 → s.pipema.acc = 0 →
    s.pipema.s5.p01.toNat ≤ 0x20000 → s.pipema.s5.p23.toNat ≤ 0x20000 →
    Completes (execAll (xs.map MaInput.op) s) fun t => t.pipema.acc.toNat ≤ xs.length * 0x40000 ∧
      Completes (exec x.op t) fun u => u.pipema.acc.toNat ≤ (xs.length + 1) * 0x40000 ∧
        u.pipema.acc.toNat =
          if t.pipema.s5.v then
            t.pipema.acc.toNat / 2 ^ t.pipema.s5.sh.toNat + t.pipema.s5.p01.toNat + t.pipema.s5.p23.toNat
          else t.pipema.acc.toNat

/-- Bubbles touch nothing: with no valid row in the ranks and none presented, `ACC` keeps its value for ever and neither
`max_valid` nor `vec_valid` is ever 1, whatever data is on the ports (R30, R234). -/
def Obligations.BubblesLeaveAccumulatorAlone : Prop :=
  ∀ (xs : List MaInput) (s : State), (∀ x ∈ xs, x.inValid = false) →
    s.pipema.s1.v = false → s.pipema.s2.v = false → s.pipema.s3.v = false → s.pipema.s4.v = false →
    s.pipema.s5.v = false →
    Completes (execAll (xs.map MaInput.op) s) fun t =>
      t.pipema.acc = s.pipema.acc ∧ t.pipema.s2.v = false ∧ t.pipema.s5.v = false

/-! ### The reciprocal-precompute pipeline -/

/-- PIPERP: the ports show the held pair; reset clears it, else stall holds it, else it takes LOD's answer for the input
(R251, R45). -/
def Obligations.PiperpSamplesHoldsOrClears : Prop :=
  ∀ (reset stall : Bool) (xIn : Fixed) (s : State), Completes (exec (.piperp reset stall xIn) s) fun t =>
    OnlyChanges .piperp s t ∧ t.out.piperp = { ksOut := s.piperp.ks, thrOut := s.piperp.thr } ∧
    t.piperp =
      if reset then ⟨0x0#4, 0x0000#16⟩
      else if stall then s.piperp
      else ⟨(leadingOneThreshold s.cfg xIn).pos, (leadingOneThreshold s.cfg xIn).thr⟩

/-- With stall asserted any number of changing inputs leaves the pair as it was, and it is what the ports show; the first
edge without stall takes LOD's answer for the input of that cycle (R252). -/
def Obligations.StallHoldsThePair : Prop :=
  ∀ (xs : List Fixed) (x : Fixed) (s : State),
    (Completes (execAll (xs.map fun y => .piperp false true y) s) fun t =>
      t.piperp = s.piperp ∧
      (xs ≠ [] → t.out.piperp = { ksOut := s.piperp.ks, thrOut := s.piperp.thr })) ∧
    (Completes (execAll (xs.map (fun y => .piperp false true y) ++ [.piperp false false x]) s) fun t =>
      t.out.piperp = { ksOut := s.piperp.ks, thrOut := s.piperp.thr } ∧
      t.piperp = ⟨(leadingOneThreshold s.cfg x).pos, (leadingOneThreshold s.cfg x).thr⟩)

/-! ### The per-channel divide pipeline -/

/-- PIPEDIV: one edge, every rank (R261): the ports show `T5`; reset clears every field; else each rank takes its value
from the rank before it, and `T4` the broadcast pair of the cycle as well. -/
def Obligations.PipedivEdgeCommitsEveryRank : Prop :=
  ∀ (reset inValid : Bool) (lmaxIn gmaxIn : Fp16) (kyIn : PackedVec) (ksIn : Code) (thrIn : Fp16) (s : State),
    Completes (exec (.pipediv reset inValid lmaxIn gmaxIn kyIn ksIn thrIn) s) fun t =>
      let r := s.pipediv
      OnlyChanges .pipediv s t ∧
      t.out.pipediv = { outValid := r.t5.v, outWord := r.t5.out } ∧
      (reset = true → t.pipediv = ⟨⟨false, 0, 0⟩, ⟨false, 0, 0⟩, ⟨false, ⟨0, 0, 0, 0⟩⟩, ⟨false, ⟨0, 0, 0, 0⟩⟩,
        ⟨false, 0⟩⟩) ∧
      (reset = false →
        t.pipediv.t1 = ⟨inValid, fpSub s.cfg lmaxIn gmaxIn, kyIn⟩ ∧
        t.pipediv.t2 = ⟨r.t1.v, log2Code r.t1.diff, r.t1.ky⟩ ∧
        t.pipediv.t3 = ⟨r.t2.v, ⟨r.t2.code.setWidth 5 + (r.t2.ky.extractLsb' 0 4).setWidth 5,
          r.t2.code.setWidth 5 + (r.t2.ky.extractLsb' 4 4).setWidth 5,
          r.t2.code.setWidth 5 + (r.t2.ky.extractLsb' 8 4).setWidth 5,
          r.t2.code.setWidth 5 + (r.t2.ky.extractLsb' 12 4).setWidth 5⟩⟩ ∧
        t.pipediv.t4 = ⟨r.t3.v, ⟨approxDivide r.t3.sum.l0.toNat ksIn.toNat thrIn,
          approxDivide r.t3.sum.l1.toNat ksIn.toNat thrIn, approxDivide r.t3.sum.l2.toNat ksIn.toNat thrIn,
          approxDivide r.t3.sum.l3.toNat ksIn.toNat thrIn⟩⟩ ∧
        t.pipediv.t5 = ⟨r.t4.v, r.t4.q.l3 ++ r.t4.q.l2 ++ r.t4.q.l1 ++ r.t4.q.l0⟩)

/-- A row presented in cycle `c`, whatever follows it, is at the output in cycle `c+5`: channel `i` is the threshold of
cycle `c+3` with `code + ky_i + ks` off its exponent, not below 0, `code` the log2 code of its local minus global maximum
and `ks` that of cycle `c+3` (R262 to R267, R269). -/
def Obligations.PipedivDividesRowAfterFiveEdges : Prop :=
  ∀ (row x1 x2 x3 x4 x5 : DivInput) (s : State),
    Completes (execAll [row.op, x1.op, x2.op, x3.op, x4.op, x5.op] s) fun t =>
      let o := t.out.pipediv
      o.outValid = row.inValid ∧
        ∀ i, i < 4 →
          let q : Fp16 := o.outWord.extractLsb' (16 * i) 16
          sign q = sign x3.thrIn ∧ mant q = mant x3.thrIn ∧
          (expo q).toNat = (expo x3.thrIn).toNat -
            ((log2Code (fpSub s.cfg row.lmaxIn row.gmaxIn)).toNat + row.kyIn.toNat / 16 ^ i % 16 + x3.ksIn.toNat)

/-! ### Reset -/

/-- From any state, the unspecified one before the first reset among them, a cycle whose reset bit for a sequential unit
is 1 leaves every register of that unit at its reset value, whatever else is on the ports and however they are wired
(R42, R44, R310); the reset pin of VEC leaves every word of it reading 0x0000 ("reset clears all addresses to zero", R73;
VEC and its pin are the model's form of D16, log 8). -/
def Obligations.ResetPinResetsItsUnit : Prop :=
  ∀ (c : Cycle) (s : State), Completes (edge c s) fun t =>
    (c.max4.getLsbD 64 = true → t.max4 = .reset) ∧
    (c.expsum.getLsbD 16 = true → t.expsum = .reset) ∧
    (c.rmaxwr.getLsbD 27 = true → t.rmax = .reset) ∧
    (c.pipema.getLsbD 91 = true → t.pipema = .reset) ∧
    (c.piperp.getLsbD 33 = true → t.piperp = .reset) ∧
    (c.pipediv.getLsbD 69 = true → t.pipediv = .reset) ∧
    (c.vecReset = true → ∀ n, readSlots t.vec n = 0x0000#16)

/-- The registers of the state after reset (R311). -/
def Obligations.ResetStateHoldsSpecifiedValues : Prop :=
  State.reset.max4 = ⟨0x0000#16, 0x0000#16⟩ ∧ State.reset.expsum = ⟨0#32, 0#32⟩ ∧
  (∀ n, readSlots State.reset.rmax.slot n = 0x0000#16) ∧ State.reset.rmax.gmax = 0xFBFF#16 ∧
  State.reset.pipema = ⟨⟨false, 0, ⟨0, 0, 0, 0⟩⟩, ⟨false, 0, ⟨0, 0, 0, 0⟩, 0, 0⟩, ⟨false, 0, ⟨0, 0, 0, 0⟩, 0⟩,
    ⟨false, 0, ⟨0, 0, 0, 0⟩, 0⟩, ⟨false, 0, 0, 0, 0, 0⟩, 0⟩ ∧
  State.reset.piperp = ⟨0x0#4, 0x0000#16⟩ ∧
  State.reset.pipediv = ⟨⟨false, 0, 0⟩, ⟨false, 0, 0⟩, ⟨false, ⟨0, 0, 0, 0⟩⟩, ⟨false, ⟨0, 0, 0, 0⟩⟩, ⟨false, 0⟩⟩

/-- What the output ports of the sequential units show in the first cycle after reset, whatever is on the input ports of
that cycle (R314). -/
def Obligations.OutputsInFirstCycleAfterReset : Prop :=
  (∀ r a b c d, Completes (exec (.max4 r a b c d) State.reset) fun t => t.out.max4 = 0x0000#16) ∧
  (∀ r v, Completes (exec (.expsum r v) State.reset) fun t => t.out.expsum = 0x00000000#32) ∧
  (∀ ra, Completes (exec (.rmaxrd ra) State.reset) fun t =>
    t.out.rmaxrd = { rdata := 0x0000#16, gmax := 0xFBFF#16 }) ∧
  (∀ r v n g w, Completes (exec (.pipema r v n g w) State.reset) fun t =>
    t.out.pipema = { maxValid := false, maxAddr := 0#10, maxData := 0x0000#16, vecValid := false, vecAddr := 0#10,
                     vecOut := 0x0000#16, accOut := 0x00000000#32 }) ∧
  (∀ r st x, Completes (exec (.piperp r st x) State.reset) fun t =>
    t.out.piperp = { ksOut := 0x0#4, thrOut := 0x0000#16 }) ∧
  (∀ r v l g k ks th, Completes (exec (.pipediv r v l g k ks th) State.reset) fun t =>
    t.out.pipediv = { outValid := false, outWord := 0x0000000000000000#64 })

/-! ### Wired units -/

/-- With the connections the source fixes, an edge of PIPEMA and RMAX writes the maximum of the row in `S2` to its slot
and folds it into `GMAX` if the row is valid and changes neither if it is not, whatever is on the other ports; and the
row's fifth difference is taken against `GMAX` as it was before that write (R32, R226, R228). -/
def Obligations.FixedWiresFeedRunningMaximum : Prop :=
  ∀ (c : Cycle) (row : MaInput) (we : Bool) (waddr : SlotAddr) (wdata : Fp16) (s : State),
    Memory.wf s.rmax.slot = true →
    let m := fpMax s.pipema.s2.rAB s.pipema.s2.rCD
    Completes (edge (({ c with wires := .fixed }.give row.op).give (.rmaxwr false we waddr wdata)) s) fun t =>
      (∀ n, readSlots t.rmax.slot n =
        if s.pipema.s2.v = true ∧ n = s.pipema.s2.addr.toNat then m else readSlots s.rmax.slot n) ∧
      t.rmax.gmax = (if s.pipema.s2.v then fpMax s.rmax.gmax m else s.rmax.gmax) ∧
      t.pipema.s3.diff4 = fpSub s.cfg m s.rmax.gmax

/-- With the connections the source fixes, an edge of PIPERP and PIPEDIV divides the row in `T3` by the pair PIPERP held
before the edge, while PIPERP takes its next pair at the same edge (R32, R253, R265). -/
def Obligations.FixedWiresBroadcastHeldPair : Prop :=
  ∀ (c : Cycle) (row : DivInput) (stall : Bool) (xIn : Fixed) (s : State),
    Completes (edge (({ c with wires := .fixed }.give (.piperp false stall xIn)).give row.op) s) fun t =>
      t.pipediv.t4 = ⟨s.pipediv.t3.v, ⟨approxDivide s.pipediv.t3.sum.l0.toNat s.piperp.ks.toNat s.piperp.thr,
        approxDivide s.pipediv.t3.sum.l1.toNat s.piperp.ks.toNat s.piperp.thr,
        approxDivide s.pipediv.t3.sum.l2.toNat s.piperp.ks.toNat s.piperp.thr,
        approxDivide s.pipediv.t3.sum.l3.toNat s.piperp.ks.toNat s.piperp.thr⟩⟩ ∧
      t.piperp = (if stall then s.piperp
        else ⟨(leadingOneThreshold s.cfg xIn).pos, (leadingOneThreshold s.cfg xIn).thr⟩)

/-- In the reference composition an edge feeds PIPEDIV with the slot and the VEC word at the driven read address and with
`GMAX`, feeds PIPERP with `ACC`, and stores PIPEMA's packed vector in VEC if it is valid (D16; the model's wires are
log 7, VEC is log 8). -/
def Obligations.ReferenceWiresFeedSecondPass : Prop :=
  ∀ (c : Cycle) (row : MaInput) (div : DivInput) (raddr : SlotAddr) (xIn : Fixed) (s : State), Memory.wf s.vec = true →
    Completes
      (edge ((((({ c with wires := .reference, vecReset := false }.give (.rmaxrd raddr)).give row.op).give
        (.piperp false false xIn)).give div.op)) s) fun t =>
      t.pipediv.t1 = ⟨div.inValid, fpSub s.cfg (readSlots s.rmax.slot raddr.toNat) s.rmax.gmax,
        readSlots s.vec raddr.toNat⟩ ∧
      t.piperp = ⟨(leadingOneThreshold s.cfg s.pipema.acc).pos, (leadingOneThreshold s.cfg s.pipema.acc).thr⟩ ∧
      ∀ n, readSlots t.vec n =
        if s.pipema.s5.v = true ∧ n = s.pipema.s5.addr.toNat then s.pipema.s5.vec else readSlots s.vec n

/-- VEC follows the contract of a plain word memory: its reset pin clears it, else a wired and valid vector of PIPEMA is
written at its address and every other word kept, else nothing changes (R73, R231; VEC is the model's form of D16, log 8,
its wire log 7). -/
def Obligations.VecFollowsPlainMemoryContract : Prop :=
  ∀ (c : Cycle) (s : State), Memory.wf s.vec = true → Completes (edge c s) fun t =>
    Memory.wf t.vec = true ∧ ∀ n, readSlots t.vec n =
      if c.vecReset then 0x0000#16
      else if c.wires.maToVec = true ∧ s.pipema.s5.v = true ∧ n = s.pipema.s5.addr.toNat then s.pipema.s5.vec
      else readSlots s.vec n

/-! ### Runs -/

/-- A run forgets everything before its reset: if its first cycle resets all six sequential units and VEC, then from any
two states with the same parameters it ends in the same state, but for what the output ports showed if the reset cycle is
its only one (R42, R44, R315; that the cycles of a run are a list in State is log 2, VEC and its reset pin are log 8). -/
def Obligations.RunForgetsStateBeforeReset : Prop :=
  ∀ (c : Cycle) (cs : List Cycle) (s u : State), u.cfg = s.cfg → c.vecReset = true → (∀ p ∈ resetPins c, p = true) →
    ∃ t v, Sys2Proof.core.run (cs.length + 1) (s.withStim (c :: cs)) = .next t ∧
      Sys2Proof.core.run (cs.length + 1) (u.withStim (c :: cs)) = .next v ∧
      State.withOut t .reset = State.withOut v .reset ∧ (cs ≠ [] → t = v)

/-- The first pass finds every maximum: from any state, after a reset of PIPEMA and RMAX wired together, any rows with one
slot each, one row or bubble per cycle, and two cycles more, the slot of every valid row holds the maximum of its four
lanes, every other slot is 0x0000, and `GMAX` is the greatest of its reset value and the maxima, whatever is on the other
ports in each cycle (R226, R235, R214 (a), R318; the list of cycles is log 2). -/
def Obligations.FirstPassFindsEveryMaximum : Prop :=
  ∀ (rows : List (MaInput × Cycle)) (first last1 last2 : Cycle) (s : State), OneSlotPerRow (rows.map Prod.fst) →
    ∃ t : State, Sys2Proof.core.run (rows.length + 3) (s.withStim (firstPass rows first last1 last2)) = .next t ∧
      (∀ r ∈ rows, r.1.inValid = true → readSlots t.rmax.slot r.1.inAddr.toNat = r.1.max) ∧
      (∀ n, (∀ r ∈ rows, r.1.inValid = true → r.1.inAddr.toNat ≠ n) → readSlots t.rmax.slot n = 0x0000#16) ∧
      (t.rmax.gmax = 0xFBFF#16 ∨ ∃ r ∈ rows, r.1.inValid = true ∧ t.rmax.gmax = r.1.max) ∧
      orderKey 0xFBFF#16 ≤ orderKey t.rmax.gmax ∧
      ∀ r ∈ rows, r.1.inValid = true → orderKey r.1.max ≤ orderKey t.rmax.gmax
end

