-- ==== Sys2Proof/Laws/State.lean ====
section
/-!
SUPPORT. One lemma per field per update of the state, true by `rfl`, and the equation of every meaning: what `exec` answers
for each operation.
-/

namespace Sys2Proof.Machine

section
variable (s : State)

@[simp] theorem withMax4_cfg (r : Max4Regs) : (s.withMax4 r).cfg = s.cfg := rfl
@[simp] theorem withMax4_max4 (r : Max4Regs) : (s.withMax4 r).max4 = r := rfl
@[simp] theorem withMax4_expsum (r : Max4Regs) : (s.withMax4 r).expsum = s.expsum := rfl
@[simp] theorem withMax4_rmax (r : Max4Regs) : (s.withMax4 r).rmax = s.rmax := rfl
@[simp] theorem withMax4_pipema (r : Max4Regs) : (s.withMax4 r).pipema = s.pipema := rfl
@[simp] theorem withMax4_piperp (r : Max4Regs) : (s.withMax4 r).piperp = s.piperp := rfl
@[simp] theorem withMax4_pipediv (r : Max4Regs) : (s.withMax4 r).pipediv = s.pipediv := rfl
@[simp] theorem withMax4_vec (r : Max4Regs) : (s.withMax4 r).vec = s.vec := rfl
@[simp] theorem withMax4_out (r : Max4Regs) : (s.withMax4 r).out = s.out := rfl
@[simp] theorem withMax4_ports (r : Max4Regs) : (s.withMax4 r).ports = s.ports := rfl
@[simp] theorem withMax4_stim (r : Max4Regs) : (s.withMax4 r).stim = s.stim := rfl

@[simp] theorem withExpsum_cfg (r : ExpsumRegs) : (s.withExpsum r).cfg = s.cfg := rfl
@[simp] theorem withExpsum_max4 (r : ExpsumRegs) : (s.withExpsum r).max4 = s.max4 := rfl
@[simp] theorem withExpsum_expsum (r : ExpsumRegs) : (s.withExpsum r).expsum = r := rfl
@[simp] theorem withExpsum_rmax (r : ExpsumRegs) : (s.withExpsum r).rmax = s.rmax := rfl
@[simp] theorem withExpsum_pipema (r : ExpsumRegs) : (s.withExpsum r).pipema = s.pipema := rfl
@[simp] theorem withExpsum_piperp (r : ExpsumRegs) : (s.withExpsum r).piperp = s.piperp := rfl
@[simp] theorem withExpsum_pipediv (r : ExpsumRegs) : (s.withExpsum r).pipediv = s.pipediv := rfl
@[simp] theorem withExpsum_vec (r : ExpsumRegs) : (s.withExpsum r).vec = s.vec := rfl
@[simp] theorem withExpsum_out (r : ExpsumRegs) : (s.withExpsum r).out = s.out := rfl
@[simp] theorem withExpsum_ports (r : ExpsumRegs) : (s.withExpsum r).ports = s.ports := rfl
@[simp] theorem withExpsum_stim (r : ExpsumRegs) : (s.withExpsum r).stim = s.stim := rfl

@[simp] theorem withRmax_cfg (r : RmaxRegs) : (s.withRmax r).cfg = s.cfg := rfl
@[simp] theorem withRmax_max4 (r : RmaxRegs) : (s.withRmax r).max4 = s.max4 := rfl
@[simp] theorem withRmax_expsum (r : RmaxRegs) : (s.withRmax r).expsum = s.expsum := rfl
@[simp] theorem withRmax_rmax (r : RmaxRegs) : (s.withRmax r).rmax = r := rfl
@[simp] theorem withRmax_pipema (r : RmaxRegs) : (s.withRmax r).pipema = s.pipema := rfl
@[simp] theorem withRmax_piperp (r : RmaxRegs) : (s.withRmax r).piperp = s.piperp := rfl
@[simp] theorem withRmax_pipediv (r : RmaxRegs) : (s.withRmax r).pipediv = s.pipediv := rfl
@[simp] theorem withRmax_vec (r : RmaxRegs) : (s.withRmax r).vec = s.vec := rfl
@[simp] theorem withRmax_out (r : RmaxRegs) : (s.withRmax r).out = s.out := rfl
@[simp] theorem withRmax_ports (r : RmaxRegs) : (s.withRmax r).ports = s.ports := rfl
@[simp] theorem withRmax_stim (r : RmaxRegs) : (s.withRmax r).stim = s.stim := rfl

@[simp] theorem withPipema_cfg (r : PipeMaRegs) : (s.withPipema r).cfg = s.cfg := rfl
@[simp] theorem withPipema_max4 (r : PipeMaRegs) : (s.withPipema r).max4 = s.max4 := rfl
@[simp] theorem withPipema_expsum (r : PipeMaRegs) : (s.withPipema r).expsum = s.expsum := rfl
@[simp] theorem withPipema_rmax (r : PipeMaRegs) : (s.withPipema r).rmax = s.rmax := rfl
@[simp] theorem withPipema_pipema (r : PipeMaRegs) : (s.withPipema r).pipema = r := rfl
@[simp] theorem withPipema_piperp (r : PipeMaRegs) : (s.withPipema r).piperp = s.piperp := rfl
@[simp] theorem withPipema_pipediv (r : PipeMaRegs) : (s.withPipema r).pipediv = s.pipediv := rfl
@[simp] theorem withPipema_vec (r : PipeMaRegs) : (s.withPipema r).vec = s.vec := rfl
@[simp] theorem withPipema_out (r : PipeMaRegs) : (s.withPipema r).out = s.out := rfl
@[simp] theorem withPipema_ports (r : PipeMaRegs) : (s.withPipema r).ports = s.ports := rfl
@[simp] theorem withPipema_stim (r : PipeMaRegs) : (s.withPipema r).stim = s.stim := rfl

@[simp] theorem withPiperp_cfg (r : PipeRpRegs) : (s.withPiperp r).cfg = s.cfg := rfl
@[simp] theorem withPiperp_max4 (r : PipeRpRegs) : (s.withPiperp r).max4 = s.max4 := rfl
@[simp] theorem withPiperp_expsum (r : PipeRpRegs) : (s.withPiperp r).expsum = s.expsum := rfl
@[simp] theorem withPiperp_rmax (r : PipeRpRegs) : (s.withPiperp r).rmax = s.rmax := rfl
@[simp] theorem withPiperp_pipema (r : PipeRpRegs) : (s.withPiperp r).pipema = s.pipema := rfl
@[simp] theorem withPiperp_piperp (r : PipeRpRegs) : (s.withPiperp r).piperp = r := rfl
@[simp] theorem withPiperp_pipediv (r : PipeRpRegs) : (s.withPiperp r).pipediv = s.pipediv := rfl
@[simp] theorem withPiperp_vec (r : PipeRpRegs) : (s.withPiperp r).vec = s.vec := rfl
@[simp] theorem withPiperp_out (r : PipeRpRegs) : (s.withPiperp r).out = s.out := rfl
@[simp] theorem withPiperp_ports (r : PipeRpRegs) : (s.withPiperp r).ports = s.ports := rfl
@[simp] theorem withPiperp_stim (r : PipeRpRegs) : (s.withPiperp r).stim = s.stim := rfl

@[simp] theorem withPipediv_cfg (r : PipeDivRegs) : (s.withPipediv r).cfg = s.cfg := rfl
@[simp] theorem withPipediv_max4 (r : PipeDivRegs) : (s.withPipediv r).max4 = s.max4 := rfl
@[simp] theorem withPipediv_expsum (r : PipeDivRegs) : (s.withPipediv r).expsum = s.expsum := rfl
@[simp] theorem withPipediv_rmax (r : PipeDivRegs) : (s.withPipediv r).rmax = s.rmax := rfl
@[simp] theorem withPipediv_pipema (r : PipeDivRegs) : (s.withPipediv r).pipema = s.pipema := rfl
@[simp] theorem withPipediv_piperp (r : PipeDivRegs) : (s.withPipediv r).piperp = s.piperp := rfl
@[simp] theorem withPipediv_pipediv (r : PipeDivRegs) : (s.withPipediv r).pipediv = r := rfl
@[simp] theorem withPipediv_vec (r : PipeDivRegs) : (s.withPipediv r).vec = s.vec := rfl
@[simp] theorem withPipediv_out (r : PipeDivRegs) : (s.withPipediv r).out = s.out := rfl
@[simp] theorem withPipediv_ports (r : PipeDivRegs) : (s.withPipediv r).ports = s.ports := rfl
@[simp] theorem withPipediv_stim (r : PipeDivRegs) : (s.withPipediv r).stim = s.stim := rfl

@[simp] theorem withVec_cfg (r : Slots) : (s.withVec r).cfg = s.cfg := rfl
@[simp] theorem withVec_max4 (r : Slots) : (s.withVec r).max4 = s.max4 := rfl
@[simp] theorem withVec_expsum (r : Slots) : (s.withVec r).expsum = s.expsum := rfl
@[simp] theorem withVec_rmax (r : Slots) : (s.withVec r).rmax = s.rmax := rfl
@[simp] theorem withVec_pipema (r : Slots) : (s.withVec r).pipema = s.pipema := rfl
@[simp] theorem withVec_piperp (r : Slots) : (s.withVec r).piperp = s.piperp := rfl
@[simp] theorem withVec_pipediv (r : Slots) : (s.withVec r).pipediv = s.pipediv := rfl
@[simp] theorem withVec_vec (r : Slots) : (s.withVec r).vec = r := rfl
@[simp] theorem withVec_out (r : Slots) : (s.withVec r).out = s.out := rfl
@[simp] theorem withVec_ports (r : Slots) : (s.withVec r).ports = s.ports := rfl
@[simp] theorem withVec_stim (r : Slots) : (s.withVec r).stim = s.stim := rfl

@[simp] theorem withOut_cfg (r : Outputs) : (s.withOut r).cfg = s.cfg := rfl
@[simp] theorem withOut_max4 (r : Outputs) : (s.withOut r).max4 = s.max4 := rfl
@[simp] theorem withOut_expsum (r : Outputs) : (s.withOut r).expsum = s.expsum := rfl
@[simp] theorem withOut_rmax (r : Outputs) : (s.withOut r).rmax = s.rmax := rfl
@[simp] theorem withOut_pipema (r : Outputs) : (s.withOut r).pipema = s.pipema := rfl
@[simp] theorem withOut_piperp (r : Outputs) : (s.withOut r).piperp = s.piperp := rfl
@[simp] theorem withOut_pipediv (r : Outputs) : (s.withOut r).pipediv = s.pipediv := rfl
@[simp] theorem withOut_vec (r : Outputs) : (s.withOut r).vec = s.vec := rfl
@[simp] theorem withOut_out (r : Outputs) : (s.withOut r).out = r := rfl
@[simp] theorem withOut_ports (r : Outputs) : (s.withOut r).ports = s.ports := rfl
@[simp] theorem withOut_stim (r : Outputs) : (s.withOut r).stim = s.stim := rfl

@[simp] theorem withPorts_cfg (c : Cycle) : (s.withPorts c).cfg = s.cfg := rfl
@[simp] theorem withPorts_max4 (c : Cycle) : (s.withPorts c).max4 = s.max4 := rfl
@[simp] theorem withPorts_expsum (c : Cycle) : (s.withPorts c).expsum = s.expsum := rfl
@[simp] theorem withPorts_rmax (c : Cycle) : (s.withPorts c).rmax = s.rmax := rfl
@[simp] theorem withPorts_pipema (c : Cycle) : (s.withPorts c).pipema = s.pipema := rfl
@[simp] theorem withPorts_piperp (c : Cycle) : (s.withPorts c).piperp = s.piperp := rfl
@[simp] theorem withPorts_pipediv (c : Cycle) : (s.withPorts c).pipediv = s.pipediv := rfl
@[simp] theorem withPorts_vec (c : Cycle) : (s.withPorts c).vec = s.vec := rfl
@[simp] theorem withPorts_ports (c : Cycle) : (s.withPorts c).ports = c := rfl
@[simp] theorem withPorts_out (c : Cycle) : (s.withPorts c).out = s.out := rfl
@[simp] theorem withPorts_stim (c : Cycle) : (s.withPorts c).stim = s.stim := rfl

@[simp] theorem withStim_cfg (r : List Cycle) : (s.withStim r).cfg = s.cfg := rfl
@[simp] theorem withStim_max4 (r : List Cycle) : (s.withStim r).max4 = s.max4 := rfl
@[simp] theorem withStim_expsum (r : List Cycle) : (s.withStim r).expsum = s.expsum := rfl
@[simp] theorem withStim_rmax (r : List Cycle) : (s.withStim r).rmax = s.rmax := rfl
@[simp] theorem withStim_pipema (r : List Cycle) : (s.withStim r).pipema = s.pipema := rfl
@[simp] theorem withStim_piperp (r : List Cycle) : (s.withStim r).piperp = s.piperp := rfl
@[simp] theorem withStim_pipediv (r : List Cycle) : (s.withStim r).pipediv = s.pipediv := rfl
@[simp] theorem withStim_vec (r : List Cycle) : (s.withStim r).vec = s.vec := rfl
@[simp] theorem withStim_out (r : List Cycle) : (s.withStim r).out = s.out := rfl
@[simp] theorem withStim_ports (r : List Cycle) : (s.withStim r).ports = s.ports := rfl
@[simp] theorem withStim_stim (r : List Cycle) : (s.withStim r).stim = r := rfl

@[simp] theorem beginCycle_cfg : (beginCycle s).cfg = s.cfg := rfl
@[simp] theorem beginCycle_max4 : (beginCycle s).max4 = s.max4 := rfl
@[simp] theorem beginCycle_expsum : (beginCycle s).expsum = s.expsum := rfl
@[simp] theorem beginCycle_rmax : (beginCycle s).rmax = s.rmax := rfl
@[simp] theorem beginCycle_pipema : (beginCycle s).pipema = s.pipema := rfl
@[simp] theorem beginCycle_piperp : (beginCycle s).piperp = s.piperp := rfl
@[simp] theorem beginCycle_pipediv : (beginCycle s).pipediv = s.pipediv := rfl
@[simp] theorem beginCycle_vec : (beginCycle s).vec = s.vec := rfl
@[simp] theorem beginCycle_ports : (beginCycle s).ports = nextCycle s := rfl
@[simp] theorem beginCycle_out : (beginCycle s).out = s.out := rfl
@[simp] theorem beginCycle_stim : (beginCycle s).stim = s.stim.tail := rfl

/-! ### What `exec` answers, operation by operation -/

@[simp] theorem exec_fadd (a b : Fp16) :
    exec (.fadd a b) s = .next (s.withOut { s.out with fadd := fpAdd s.cfg a b }) := rfl

@[simp] theorem exec_fsub (a b : Fp16) :
    exec (.fsub a b) s = .next (s.withOut { s.out with fsub := fpSub s.cfg a b }) := rfl

@[simp] theorem exec_fmul (a b : Fp16) :
    exec (.fmul a b) s = .next (s.withOut { s.out with fmul := fpMul s.cfg a b }) := rfl

@[simp] theorem exec_fmax (a b : Fp16) :
    exec (.fmax a b) s = .next (s.withOut { s.out with fmax := fpMax a b }) := rfl

@[simp] theorem exec_lod (x : Fixed) :
    exec (.lod x) s = .next (s.withOut { s.out with lod := leadingOneThreshold s.cfg x }) := rfl

@[simp] theorem exec_log2 (x : Fp16) :
    exec (.log2 x) s = .next (s.withOut { s.out with log2 := log2Code x }) := rfl

@[simp] theorem exec_rdiv (ky ks : Code) (thr : Fp16) :
    exec (.rdiv ky ks thr) s =
      .next (s.withOut { s.out with rdiv := approxDivide ky.toNat ks.toNat thr }) := rfl

@[simp] theorem exec_max4 (reset : Bool) (a b c d : Fp16) :
    exec (.max4 reset a b c d) s =
      .next ((s.withOut { s.out with max4 := maxOut s.max4 }).withMax4 (nextMax4 reset a b c d)) := rfl

@[simp] theorem exec_expsum (reset : Bool) (vec : PackedVec) :
    exec (.expsum reset vec) s =
      .next ((s.withOut { s.out with expsum := sumOut s.expsum }).withExpsum (nextExpsum reset vec)) := rfl

@[simp] theorem exec_rmaxwr (reset we : Bool) (waddr : SlotAddr) (wdata : Fp16) :
    exec (.rmaxwr reset we waddr wdata) s = .next (s.withRmax (nextRmax reset we waddr wdata s.rmax)) := rfl

@[simp] theorem exec_rmaxrd (raddr : SlotAddr) :
    exec (.rmaxrd raddr) s = .next (s.withOut { s.out with rmaxrd := readRmax s.rmax raddr }) := rfl

@[simp] theorem exec_pipema (reset inValid : Bool) (inAddr : SlotAddr) (gmaxIn : Fp16) (inWord : RowWord) :
    exec (.pipema reset inValid inAddr gmaxIn inWord) s =
      .next ((s.withOut { s.out with pipema := showPipema s.pipema }).withPipema
        (nextPipema s.cfg reset inValid inAddr gmaxIn inWord s.pipema)) := rfl

@[simp] theorem exec_piperp (reset stall : Bool) (xIn : Fixed) :
    exec (.piperp reset stall xIn) s =
      .next ((s.withOut { s.out with piperp := showPiperp s.piperp }).withPiperp
        (nextPiperp s.cfg reset stall xIn s.piperp)) := rfl

@[simp] theorem exec_pipediv (reset inValid : Bool) (lmaxIn gmaxIn : Fp16) (kyIn : PackedVec) (ksIn : Code)
    (thrIn : Fp16) :
    exec (.pipediv reset inValid lmaxIn gmaxIn kyIn ksIn thrIn) s =
      .next ((s.withOut { s.out with pipediv := showPipediv s.pipediv }).withPipediv
        (nextPipediv s.cfg reset inValid lmaxIn gmaxIn kyIn ksIn thrIn s.pipediv)) := rfl

end

/-- Of two replacements of what the output ports show the later stands. -/
@[simp] theorem withOut_withOut (s : State) (a b : Outputs) : (s.withOut a).withOut b = s.withOut b := rfl

/-- An update of a field the state already has changes nothing. -/
@[simp] theorem withVec_self (s : State) : s.withVec s.vec = s := rfl

end Sys2Proof.Machine
end

