-- ==== Sys2Proof/Laws/Edge.lean ====
section
/-!
SUPPORT. What an edge can do: every operation answers a next state, so a list of operations does, and so does a step.
-/

namespace Sys2Proof.Machine

@[simp] theorem execAll_nil (s : State) : execAll [] s = .next s := rfl

/-- Executing a list that begins with an operation that answers `t` is executing the rest from `t`. -/
theorem execAll_cons_next {i : Instr} {is : List Instr} {s t : State} (h : exec i s = .next t) :
    execAll (i :: is) s = execAll is t := by
  simp [execAll, h]

/-- Executing one operation alone. -/
@[simp] theorem execAll_single (i : Instr) (s : State) : execAll [i] s = exec i s := by
  cases i <;> rfl

/-- Executing two lists one after the other. -/
theorem execAll_append {xs ys : List Instr} {s t : State} (h : execAll xs s = .next t) :
    execAll (xs ++ ys) s = execAll ys t := by
  induction xs generalizing s with
  | nil => simp only [execAll_nil, Host.Outcome.next.injEq] at h; simp [h]
  | cons i xs ih =>
    simp only [execAll, List.cons_append] at h ⊢
    cases hi : exec i s with
    | next u => simp only [hi] at h ⊢; exact ih h
    | fault r => simp [hi] at h
    | refused r => simp [hi] at h

/-- With the unit standing alone no input port is wired. -/
@[simp] theorem settleInputs_standalone (raddr : SlotAddr) (s : State) (i : Instr) :
    settleInputs .standalone raddr s i = i := by
  cases i <;> rfl

/-- Wires change the values on an operation's ports, not the operation. -/
@[simp] theorem settleInputs_op (w : Wires) (raddr : SlotAddr) (s : State) (i : Instr) :
    (settleInputs w raddr s i).op = i.op := by
  cases i <;> rfl

/-- A cycle presents every operation exactly once (R22). -/
theorem presented_ops (c : Cycle) :
    (presented c).map Instr.op =
      [.fadd, .fsub, .fmul, .fmax, .lod, .log2, .rdiv, .rmaxrd, .max4, .expsum, .rmaxwr, .pipema, .piperp, .pipediv] := rfl

/-- The record put on an operation's ports is the one that is there. -/
theorem record_present (c : Cycle) (r : Record) (h : r.wf = true) : (c.present r).record r.op = r := by
  obtain ⟨op, n⟩ := r
  cases op <;>
  · have h' := of_decide_eq_true h
    simp only [Op.width] at h'
    simp only [Cycle.present, Cycle.record, BitVec.toNat_ofNat, Nat.mod_eq_of_lt h']

/-- Putting a record on one operation's ports leaves the records on all other ports. -/
theorem record_present_other (c : Cycle) (r : Record) {op : Op} (h : op ≠ r.op) :
    (c.present r).record op = c.record op := by
  obtain ⟨o, n⟩ := r
  cases o <;> cases op <;> first | exact absurd rfl h | rfl

/-- What one edge can do, said once: every output port shows its function of the old registers and the settled inputs,
every register takes its next value (R40), the parameters, the input ports and the stimulus stay. -/
theorem edge_eq (c : Cycle) (s : State) :
    edge c s = .next
      { cfg := s.cfg
        max4 := nextMax4 (c.max4.getLsbD 64) (c.max4.extractLsb' 48 16) (c.max4.extractLsb' 32 16)
          (c.max4.extractLsb' 16 16) (c.max4.extractLsb' 0 16)
        expsum := nextExpsum (c.expsum.getLsbD 16) (c.expsum.extractLsb' 0 16)
        rmax := nextRmax (c.rmaxwr.getLsbD 27) (wired c.wires.maToRmax s.pipema.s2.v (c.rmaxwr.getLsbD 26))
          (wired c.wires.maToRmax s.pipema.s2.addr (c.rmaxwr.extractLsb' 16 10))
          (wired c.wires.maToRmax (rowMax s.pipema.s2) (c.rmaxwr.extractLsb' 0 16)) s.rmax
        pipema := nextPipema s.cfg (c.pipema.getLsbD 91) (c.pipema.getLsbD 90) (c.pipema.extractLsb' 80 10)
          (wired c.wires.rmaxToMa s.rmax.gmax (c.pipema.extractLsb' 64 16)) (c.pipema.extractLsb' 0 64) s.pipema
        piperp := nextPiperp s.cfg (c.piperp.getLsbD 33) (c.piperp.getLsbD 32)
          (wired c.wires.maToRp s.pipema.acc (c.piperp.extractLsb' 0 32)) s.piperp
        pipediv := nextPipediv s.cfg (c.pipediv.getLsbD 69) (c.pipediv.getLsbD 68)
          (wired c.wires.rmaxToDiv (readSlots s.rmax.slot c.rmaxrd.toNat) (c.pipediv.extractLsb' 52 16))
          (wired c.wires.rmaxToDiv s.rmax.gmax (c.pipediv.extractLsb' 36 16))
          (wired c.wires.vecToDiv (readSlots s.vec c.rmaxrd.toNat) (c.pipediv.extractLsb' 20 16))
          (wired c.wires.rpToDiv s.piperp.ks (c.pipediv.extractLsb' 16 4))
          (wired c.wires.rpToDiv s.piperp.thr (c.pipediv.extractLsb' 0 16)) s.pipediv
        vec := nextVec c s
        ports := s.ports
        out :=
          { fadd := fpAdd s.cfg (c.fadd.extractLsb' 16 16) (c.fadd.extractLsb' 0 16)
            fsub := fpSub s.cfg (c.fsub.extractLsb' 16 16) (c.fsub.extractLsb' 0 16)
            fmul := fpMul s.cfg (c.fmul.extractLsb' 16 16) (c.fmul.extractLsb' 0 16)
            fmax := fpMax (c.fmax.extractLsb' 16 16) (c.fmax.extractLsb' 0 16)
            lod := leadingOneThreshold s.cfg c.lod
            log2 := log2Code c.log2
            max4 := maxOut s.max4
            expsum := sumOut s.expsum
            rdiv := approxDivide (c.rdiv.extractLsb' 20 4).toNat (c.rdiv.extractLsb' 16 4).toNat
              (c.rdiv.extractLsb' 0 16)
            rmaxrd := readRmax s.rmax c.rmaxrd
            pipema := showPipema s.pipema
            piperp := showPiperp s.piperp
            pipediv := showPipediv s.pipediv }
        stim := s.stim } := by
  simp only [edge, settledOps, presented, List.map, decodeFadd, decodeFsub, decodeFmul, decodeFmax, decodeLod, decodeLog2,
    decodeMax4, decodeExpsum, decodeRdiv, decodeRmaxwr, decodeRmaxrd, decodePipema, decodePiperp, decodePipediv,
    settleInputs, execAll, exec_fadd, exec_fsub, exec_fmul, exec_fmax, exec_lod, exec_log2, exec_max4, exec_expsum,
    exec_rdiv, exec_rmaxwr, exec_rmaxrd, exec_pipema, exec_piperp, exec_pipediv, withVec_cfg, withVec_out, withVec_rmax,
    withOut_withOut, withOut_out, withOut_cfg, withOut_rmax, withOut_max4, withOut_expsum, withOut_pipema, withOut_piperp,
    withOut_pipediv, withMax4_out, withMax4_cfg, withMax4_rmax, withMax4_expsum, withMax4_pipema, withMax4_piperp,
    withMax4_pipediv, withExpsum_out, withExpsum_cfg, withExpsum_rmax, withExpsum_pipema, withExpsum_piperp,
    withExpsum_pipediv, withRmax_out, withRmax_cfg, withRmax_pipema, withRmax_piperp, withRmax_pipediv, withPipema_out,
    withPipema_cfg, withPipema_piperp, withPipema_pipediv, withPiperp_out, withPiperp_cfg, withPiperp_pipediv,
    withVec_max4, withVec_expsum, withVec_pipema, withVec_piperp, withVec_pipediv]
  rfl

end Sys2Proof.Machine
end

