-- ==== Sys2Proof/Laws/Fields.lean ====
section
/-!
SUPPORT. The fields of an FP16 code and the lanes of packed words: packing and unpacking undo each other.
-/

namespace Sys2Proof.Machine

/-- A concatenation as a number: the first part above the second (R11). -/
theorem append_toNat {n m : Nat} (x : BitVec n) (y : BitVec m) : (x ++ y).toNat = x.toNat * 2 ^ m + y.toNat := by
  rw [BitVec.toNat_append, ← Nat.shiftLeft_add_eq_or_of_lt y.isLt, Nat.shiftLeft_eq]

/-- A slice as a number. -/
theorem slice_toNat {n : Nat} (x : BitVec n) (lo len : Nat) :
    (x.extractLsb' lo len).toNat = x.toNat / 2 ^ lo % 2 ^ len := by
  simp [Nat.shiftRight_eq_div_pow]

/-- A bit as a number. -/
theorem bit_eq {n : Nat} (x : BitVec n) (i : Nat) : x.getLsbD i = decide (x.toNat / 2 ^ i % 2 = 1) := by
  rw [BitVec.getLsbD, Nat.testBit_eq_decide_div_mod_eq]

/-- A code as a number: its fields weighted (R80). -/
theorem packFp_toNat (s : Bool) (e : BitVec 5) (m : BitVec 10) :
    (packFp s e m).toNat = (s.toNat * 2 ^ 5 + e.toNat) * 2 ^ 10 + m.toNat := by
  change (BitVec.ofBool s ++ e ++ m).toNat = _
  rw [append_toNat, append_toNat, BitVec.toNat_ofBool]

@[simp] theorem sign_packFp (s : Bool) (e : BitVec 5) (m : BitVec 10) : sign (packFp s e m) = s := by
  have he := e.isLt
  have hm := m.isLt
  rw [sign, bit_eq, packFp_toNat]
  cases s <;> simp <;> omega

@[simp] theorem expo_packFp (s : Bool) (e : BitVec 5) (m : BitVec 10) : expo (packFp s e m) = e := by
  have he := e.isLt
  have hm := m.isLt
  apply BitVec.eq_of_toNat_eq
  rw [expo, slice_toNat, packFp_toNat]
  omega

@[simp] theorem mant_packFp (s : Bool) (e : BitVec 5) (m : BitVec 10) : mant (packFp s e m) = m := by
  have hm := m.isLt
  apply BitVec.eq_of_toNat_eq
  rw [mant, slice_toNat, packFp_toNat]
  omega

/-- A code is its three fields (R80). -/
theorem packFp_fields (x : Fp16) : packFp (sign x) (expo x) (mant x) = x := by
  have hx := x.isLt
  apply BitVec.eq_of_toNat_eq
  rw [packFp_toNat, sign, bit_eq, expo, slice_toNat, mant, slice_toNat]
  by_cases h : x.toNat / 2 ^ 15 % 2 = 1 <;> simp only [h, decide_true, decide_false, Bool.toNat_true, Bool.toNat_false] <;>
    omega

/-- Two codes with the same fields are the same code. -/
theorem fp_ext {x y : Fp16} (hs : sign x = sign y) (he : expo x = expo y) (hm : mant x = mant y) : x = y := by
  rw [← packFp_fields x, ← packFp_fields y, hs, he, hm]

/-- A row word as a number: lane 0 lowest (R84). -/
theorem packRow_toNat (q : Quad Fp16) :
    (packRow q).toNat = ((q.l3.toNat * 2 ^ 16 + q.l2.toNat) * 2 ^ 16 + q.l1.toNat) * 2 ^ 16 + q.l0.toNat := by
  change (q.l3 ++ q.l2 ++ q.l1 ++ q.l0).toNat = _
  rw [append_toNat, append_toNat, append_toNat]

/-- A packed vector as a number: lane 0 lowest (R85). -/
theorem packVec_toNat (q : Quad Code) :
    (packVec q).toNat = ((q.l3.toNat * 2 ^ 4 + q.l2.toNat) * 2 ^ 4 + q.l1.toNat) * 2 ^ 4 + q.l0.toNat := by
  change (q.l3 ++ q.l2 ++ q.l1 ++ q.l0).toNat = _
  rw [append_toNat, append_toNat, append_toNat]

/-- Unpacking a packed row word gives its lanes. -/
@[simp] theorem lanes16_packRow (q : Quad Fp16) : lanes16 (packRow q) = q := by
  obtain ⟨a, b, c, d⟩ := q
  have ha := a.isLt
  have hb := b.isLt
  have hc := c.isLt
  have hd := d.isLt
  simp only [lanes16, Quad.mk.injEq]
  refine ⟨?_, ?_, ?_, ?_⟩ <;>
  · apply BitVec.eq_of_toNat_eq
    rw [slice_toNat, packRow_toNat]
    dsimp only
    omega

/-- Unpacking a packed vector gives its codes. -/
@[simp] theorem lanes4_packVec (q : Quad Code) : lanes4 (packVec q) = q := by
  obtain ⟨a, b, c, d⟩ := q
  have ha := a.isLt
  have hb := b.isLt
  have hc := c.isLt
  have hd := d.isLt
  simp only [lanes4, Quad.mk.injEq]
  refine ⟨?_, ?_, ?_, ?_⟩ <;>
  · apply BitVec.eq_of_toNat_eq
    rw [slice_toNat, packVec_toNat]
    dsimp only
    omega

@[simp] theorem Quad.map_mk {α β : Type} (f : α → β) (a b c d : α) :
    Quad.map f ⟨a, b, c, d⟩ = ⟨f a, f b, f c, f d⟩ := rfl

end Sys2Proof.Machine
end

