-- ==== Sys2Proof/Laws/Memory.lean ====
section
/-!
SUPPORT. The laws of the slot memory: a read after a write, the canonical form kept, and equality of memories that read
the same.
-/

namespace Sys2Proof.Machine

@[simp] theorem readSlots_nil (n : Nat) : readSlots [] n = 0#16 := rfl

/-- A canonical memory reads 0x0000 below its first address. -/
theorem readSlots_below {m : Slots} : ∀ {lo n : Nat}, slotsWfFrom lo m = true → n < lo → readSlots m n = 0#16 := by
  induction m with
  | nil => intro lo n _ _; rfl
  | cons p m ih =>
    obtain ⟨a, w⟩ := p
    intro lo n h hn
    simp only [slotsWfFrom, Bool.and_eq_true, decide_eq_true_eq] at h
    have hne : n ≠ a := by omega
    simp only [readSlots, if_neg hne]
    exact ih h.2 (by omega)

/-- A read after a write: the written slot reads the value written, every other slot what it read before. -/
theorem readSlots_writeSlots {m : Slots} :
    ∀ {lo : Nat} (n k : Nat) (v : BitVec 16), slotsWfFrom lo m = true →
      readSlots (writeSlots m n v) k = if k = n then v else readSlots m k := by
  induction m with
  | nil =>
    intro lo n k v _
    by_cases hv : v = 0#16 <;> by_cases hk : k = n <;> simp [writeSlots, readSlots, hv, hk]
  | cons p m ih =>
    obtain ⟨a, w⟩ := p
    intro lo n k v h
    simp only [slotsWfFrom, Bool.and_eq_true, decide_eq_true_eq] at h
    obtain ⟨⟨⟨_, _⟩, _⟩, hm⟩ := h
    have hlow : ∀ j, j ≤ a → readSlots m j = 0#16 := fun j hj => readSlots_below hm (by omega)
    simp only [writeSlots]
    split
    · rename_i hna
      by_cases hv : v = 0#16
      · subst hv
        by_cases hk : k = n
        · subst hk; simp [readSlots, Nat.ne_of_lt hna, hlow k (Nat.le_of_lt hna)]
        · simp [hk]
      · by_cases hk : k = n <;> simp [readSlots, hv, hk]
    · split
      · rename_i hna
        subst hna
        by_cases hv : v = 0#16
        · subst hv
          by_cases hk : k = n
          · subst hk; simp [hlow k (Nat.le_refl k)]
          · simp [readSlots, hk]
        · by_cases hk : k = n <;> simp [readSlots, hv, hk]
      · rename_i h1 h2
        by_cases hk : k = a
        · subst hk; simp [readSlots, Ne.symm h2]
        · simp only [readSlots, if_neg hk]
          exact ih n k v hm

/-- A write keeps the canonical form from any address not above the one written. -/
theorem slotsWfFrom_writeSlots {m : Slots} :
    ∀ {lo : Nat} (n : Nat) (v : BitVec 16), slotsWfFrom lo m = true → lo ≤ n → n < rmaxDepth →
      slotsWfFrom lo (writeSlots m n v) = true := by
  induction m with
  | nil =>
    intro lo n v _ hlo hn
    by_cases hv : v = 0#16 <;> simp [writeSlots, slotsWfFrom, hv, hlo, hn]
  | cons p m ih =>
    obtain ⟨a, w⟩ := p
    intro lo n v h hlo hn
    have h' := h
    simp only [slotsWfFrom, Bool.and_eq_true, decide_eq_true_eq] at h
    obtain ⟨⟨⟨hla, had⟩, hw⟩, hm⟩ := h
    simp only [writeSlots]
    split
    · rename_i hna
      by_cases hv : v = 0#16
      · simpa [hv] using h'
      · simp only [hv, if_false, slotsWfFrom, Bool.and_eq_true, decide_eq_true_eq]
        exact ⟨⟨⟨hlo, hn⟩, hv⟩, ⟨⟨by omega, had⟩, hw⟩, hm⟩
    · split
      · rename_i hna
        subst hna
        by_cases hv : v = 0#16
        · simp only [hv, if_true]
          cases m with
          | nil => rfl
          | cons q m =>
            obtain ⟨b, u⟩ := q
            simp only [slotsWfFrom, Bool.and_eq_true, decide_eq_true_eq] at hm ⊢
            exact ⟨⟨⟨by omega, hm.1.1.2⟩, hm.1.2⟩, hm.2⟩
        · simp only [hv, if_false, slotsWfFrom, Bool.and_eq_true, decide_eq_true_eq]
          exact ⟨⟨⟨hla, had⟩, hv⟩, hm⟩
      · simp only [slotsWfFrom, Bool.and_eq_true, decide_eq_true_eq]
        exact ⟨⟨⟨hla, had⟩, hw⟩, ih n v hm (by omega) hn⟩

/-- Every memory operation keeps the canonical form; the addresses of the hardware are 10 bits wide. -/
theorem wf_writeSlots {m : Slots} (h : Memory.wf m = true) (a : SlotAddr) (v : BitVec 16) :
    Memory.wf (writeSlots m a.toNat v) = true :=
  slotsWfFrom_writeSlots a.toNat v h (Nat.zero_le _) (by simpa [rmaxDepth] using a.isLt)

/-- The memory after reset is canonical. -/
@[simp] theorem wf_nil : Memory.wf [] = true := rfl

/-- A read after a write to a canonical memory. -/
theorem read_write {m : Slots} (h : Memory.wf m = true) (n k : Nat) (v : BitVec 16) :
    readSlots (writeSlots m n v) k = if k = n then v else readSlots m k :=
  readSlots_writeSlots n k v h

end Sys2Proof.Machine
end

