-- ==== Sys2Proof/Laws/PerInstr.lean ====
section
/-!
SUPPORT. Statements made per instruction. `EncodeFits`: the record the encoder writes for an instruction is one of its
operation and fits that operation's width (R88).
-/

namespace Sys2Proof.Laws.EncodeFits

/-- The encoder's record of an instruction names its operation and is well formed. -/
def Statement (i : Instr) : Prop := (encode i).op = i.op ∧ (encode i).wf = true

theorem fadd (a b : Fp16) : Statement (.fadd a b) := ⟨rfl, decide_eq_true (a ++ b).isLt⟩
theorem fsub (a b : Fp16) : Statement (.fsub a b) := ⟨rfl, decide_eq_true (a ++ b).isLt⟩
theorem fmul (a b : Fp16) : Statement (.fmul a b) := ⟨rfl, decide_eq_true (a ++ b).isLt⟩
theorem fmax (a b : Fp16) : Statement (.fmax a b) := ⟨rfl, decide_eq_true (a ++ b).isLt⟩
theorem lod (x : Fixed) : Statement (.lod x) := ⟨rfl, decide_eq_true x.isLt⟩
theorem log2 (x : Fp16) : Statement (.log2 x) := ⟨rfl, decide_eq_true x.isLt⟩
theorem max4 (reset : Bool) (a b c d : Fp16) : Statement (.max4 reset a b c d) :=
  ⟨rfl, decide_eq_true (BitVec.ofBool reset ++ a ++ b ++ c ++ d).isLt⟩
theorem expsum (reset : Bool) (vec : PackedVec) : Statement (.expsum reset vec) :=
  ⟨rfl, decide_eq_true (BitVec.ofBool reset ++ vec).isLt⟩
theorem rdiv (ky ks : Code) (thr : Fp16) : Statement (.rdiv ky ks thr) := ⟨rfl, decide_eq_true (ky ++ ks ++ thr).isLt⟩
theorem rmaxwr (reset we : Bool) (waddr : SlotAddr) (wdata : Fp16) : Statement (.rmaxwr reset we waddr wdata) :=
  ⟨rfl, decide_eq_true (BitVec.ofBool reset ++ BitVec.ofBool we ++ waddr ++ wdata).isLt⟩
theorem rmaxrd (raddr : SlotAddr) : Statement (.rmaxrd raddr) := ⟨rfl, decide_eq_true raddr.isLt⟩
theorem pipema (reset inValid : Bool) (inAddr : SlotAddr) (gmaxIn : Fp16) (inWord : RowWord) :
    Statement (.pipema reset inValid inAddr gmaxIn inWord) :=
  ⟨rfl, decide_eq_true (BitVec.ofBool reset ++ BitVec.ofBool inValid ++ inAddr ++ gmaxIn ++ inWord).isLt⟩
theorem piperp (reset stall : Bool) (xIn : Fixed) : Statement (.piperp reset stall xIn) :=
  ⟨rfl, decide_eq_true (BitVec.ofBool reset ++ BitVec.ofBool stall ++ xIn).isLt⟩
theorem pipediv (reset inValid : Bool) (lmaxIn gmaxIn : Fp16) (kyIn : PackedVec) (ksIn : Code) (thrIn : Fp16) :
    Statement (.pipediv reset inValid lmaxIn gmaxIn kyIn ksIn thrIn) :=
  ⟨rfl, decide_eq_true
    (BitVec.ofBool reset ++ BitVec.ofBool inValid ++ lmaxIn ++ gmaxIn ++ kyIn ++ ksIn ++ thrIn).isLt⟩

end Sys2Proof.Laws.EncodeFits
end

