-- ==== Sys2Proof/Laws/Units.lean ====
section
/-!
SUPPORT. What each shared operation can answer, said once: the selection of FMAX, the leading-one scan, the outcomes of
rounding, the alignment and normalization of FADD, the lane values and the divider's fields.
-/

namespace Sys2Proof.Machine

/-- FMAX answers one of its operands. -/
theorem fpMax_eq_or (a b : Fp16) : fpMax a b = a ∨ fpMax a b = b := by
  unfold fpMax
  split <;> split <;> (try split) <;> simp

/-- The scan answers an index below its start, or 0. -/
theorem leadingOne_lt (v : Nat) : ∀ {n : Nat}, 0 < n → leadingOne v n < n := by
  intro n hn
  induction n with
  | zero => omega
  | succ n ih =>
    simp only [leadingOne]
    split
    · omega
    · cases n with
      | zero => simp [leadingOne]
      | succ k => exact Nat.lt_succ_of_lt (ih (by omega))

/-- The scan answers the index of a set bit if some bit below its start is set. -/
theorem leadingOne_set {v : Nat} : ∀ {n i : Nat}, i < n → v.testBit i = true → v.testBit (leadingOne v n) = true := by
  intro n
  induction n with
  | zero => intro i hi; omega
  | succ n ih =>
    intro i hi hb
    simp only [leadingOne]
    split
    · assumption
    · rename_i h
      have hne : i ≠ n := by rintro rfl; exact h hb
      exact ih (by omega) hb

/-- No bit between the scan's answer and its start is set. -/
theorem leadingOne_above {v : Nat} : ∀ {n j : Nat}, leadingOne v n < j → j < n → v.testBit j = false := by
  intro n
  induction n with
  | zero => intro j _ hj; omega
  | succ n ih =>
    intro j h hj
    simp only [leadingOne] at h
    split at h
    · omega
    · rename_i hb
      rcases Nat.lt_succ_iff_lt_or_eq.mp hj with hlt | rfl
      · exact ih h hlt
      · simpa using hb

/-- Rounding answers a signed infinity, a signed zero, or a code whose exponent field is 1 to 30 (R123). -/
theorem roundPack_cases (s : Bool) (e : Int) (S : BitVec 14) :
    roundPack s e S = signedInf s ∨ roundPack s e S = signedZero s ∨
      ∃ (k : Int) (m : BitVec 10), 1 ≤ k ∧ k ≤ 30 ∧ roundPack s e S = packFp s (BitVec.ofInt 5 k) m := by
  simp only [roundPack]
  generalize (if BitVec.setWidth 12 (BitVec.extractLsb' 3 11 S) + _ = 2048#12 then e + 1 else e) = k
  split
  · exact .inl rfl
  · split
    · exact .inr (.inl rfl)
    · exact .inr (.inr ⟨k, _, by omega, by omega, rfl⟩)

/-- From 14 places on an aligned significand is the sticky bit alone (R125). -/
theorem alignSticky_far {y : BitVec 14} {d : Nat} (h : 14 ≤ d) : alignSticky y d = 1 := by
  simp [alignSticky, h]

/-- An operand that is not shifted keeps its significand (R125). -/
theorem alignSticky_zero (y : BitVec 14) : alignSticky y 0 = y := by
  simp [alignSticky, lostBits, Nat.mod_one]

/-- Normalization keeps the value `S * 2^e` when it stops with its top bit set: it answers a left shift and as much off
the exponent. -/
theorem normalize_cases : ∀ (n : Nat) (e : Int) (S : BitVec 14),
    ∃ k, k ≤ n ∧ normalize n e S = (e - (k : Int), S <<< k) := by
  intro n
  induction n with
  | zero => intro e S; exact ⟨0, Nat.le_refl _, by simp [normalize]⟩
  | succ n ih =>
    intro e S
    simp only [normalize]
    split
    · exact ⟨0, Nat.zero_le _, by simp⟩
    · obtain ⟨k, hk, h⟩ := ih (e - 1) (S <<< 1)
      refine ⟨k + 1, by omega, ?_⟩
      rw [h, Nat.add_comm k 1, BitVec.shiftLeft_add]
      congr 1
      push_cast
      omega

/-- A lane value is the power of two its code stands for (R191). -/
theorem laneVal_toNat (c : Code) : (laneVal c).toNat = 2 ^ (16 - c.toNat) := by
  revert c; decide

/-- The clamp of the divider, whose upper bound never acts on a difference of at most 31 (R202 (a)). -/
theorem clampExp_sub {e r : Nat} (he : e ≤ 31) : clampExp ((e : Int) - (r : Int)) = ((e - r : Nat) : Int) := by
  unfold clampExp
  split
  · omega
  · split <;> omega

/-- The divider passes the sign of the threshold through (R201). -/
@[simp] theorem sign_approxDivide (ky ks : Nat) (thr : Fp16) : sign (approxDivide ky ks thr) = sign thr := by
  simp [approxDivide]

/-- The divider passes the mantissa of the threshold through (R201). -/
@[simp] theorem mant_approxDivide (ky ks : Nat) (thr : Fp16) : mant (approxDivide ky ks thr) = mant thr := by
  simp [approxDivide]

/-- Reset overrides every next-state function (R42). -/
@[simp] theorem nextSlots_reset : RmaxRegs.reset.slot = [] := rfl

@[simp] theorem reset_gmax : RmaxRegs.reset.gmax = gmaxReset := rfl

end Sys2Proof.Machine
end

