-- ==== Sys2Proof/Tests/Slice0.lean ====
section
/-!
SUPPORT. The model's own tests: the well-formedness checks refuse what they must, every operation's decoding shown on a
record written out in `95_test_vectors.md`, one-step tests with the results of the spec's tables, and for every statement
with hypotheses a concrete state and operands that meet them. No expected value is the model's own.
-/

namespace Sys2Proof.Tests

open Sys2Proof.Machine

/-! ### Well-formedness: what each check refuses -/

/-- R88: a LOG2 record has 16 bits. -/
theorem test_record_too_wide_refused :
    Record.wf ⟨.log2, 0x10000⟩ = false ∧ decode ⟨.log2, 0x10000⟩ = .error .recordTooWide := ⟨rfl, rfl⟩

/-- R88: a PIPEMA record has 92 bits. -/
theorem test_widest_record_too_wide_refused : decode ⟨.pipema, 2 ^ 92⟩ = .error .recordTooWide := rfl

/-- R9: `P_NAN_MANT` is any nonzero value. -/
theorem test_zero_nan_mantissa_refused :
    Params.wf { Params.standard with nanMant := 0 } = false ∧ Params.standard.wf = true := by decide

/-- R60: RMAX has 1,024 slots, so a memory that lists slot 1024 is not canonical. -/
theorem test_slot_out_of_range_refused : Memory.wf [(1024, 1)] = false ∧ Memory.wf [(1023, 1)] = true := by decide

/-- The canonical form refuses a listed zero and an unsorted list (log 6). -/
theorem test_noncanonical_memory_refused :
    Memory.wf [(5, 0)] = false ∧ Memory.wf [(6, 1), (5, 1)] = false ∧ Memory.wf [(5, 1), (5, 2)] = false := by decide

/-! ### Decoding: records of `95_test_vectors.md` or written out from R88 -/

theorem test_decode_fadd : decode ⟨.fadd, 0x3C004000⟩ = .ok (.fadd 0x3C00#16 0x4000#16) := rfl
theorem test_decode_fsub : decode ⟨.fsub, 0x4200C000⟩ = .ok (.fsub 0x4200#16 0xC000#16) := rfl
theorem test_decode_fmul : decode ⟨.fmul, 0x35554200⟩ = .ok (.fmul 0x3555#16 0x4200#16) := rfl
theorem test_decode_fmax : decode ⟨.fmax, 0xFBFFFE00⟩ = .ok (.fmax 0xFBFF#16 0xFE00#16) := rfl
theorem test_decode_lod : decode ⟨.lod, 0x0005C200⟩ = .ok (.lod 0x0005C200#32) := rfl
theorem test_decode_log2 : decode ⟨.log2, 0xC500⟩ = .ok (.log2 0xC500#16) := rfl
/-- P1, cycles 1 and 6. -/
theorem test_decode_max4 :
    decode ⟨.max4, 0x03C0040003800C200⟩ = .ok (.max4 false 0x3C00#16 0x4000#16 0x3800#16 0xC200#16) ∧
    decode ⟨.max4, 0x14400000000000000⟩ = .ok (.max4 true 0x4400#16 0#16 0#16 0#16) := ⟨rfl, rfl⟩
/-- P2. -/
theorem test_decode_expsum :
    decode ⟨.expsum, 0x07201⟩ = .ok (.expsum false 0x7201#16) ∧ decode ⟨.expsum, 0x10000⟩ = .ok (.expsum true 0#16) :=
  ⟨rfl, rfl⟩
theorem test_decode_rdiv : decode ⟨.rdiv, 0x72388B⟩ = .ok (.rdiv 7#4 2#4 0x388B#16) := rfl
/-- Section 2.10, `k=1` and `k=0`. -/
theorem test_decode_rmaxwr :
    decode ⟨.rmaxwr, 0x405C000⟩ = .ok (.rmaxwr false true 5#10 0xC000#16) ∧
    decode ⟨.rmaxwr, 0x8000000⟩ = .ok (.rmaxwr true false 0#10 0#16) := ⟨rfl, rfl⟩
theorem test_decode_rmaxrd : decode ⟨.rmaxrd, 0x3FF⟩ = .ok (.rmaxrd 1023#10) := rfl
/-- P3. -/
theorem test_decode_pipema :
    decode ⟨.pipema, 0x407FBFFC200380040003C00⟩ =
      .ok (.pipema false true 7#10 0xFBFF#16 0xC200380040003C00#64) := rfl
/-- P4. -/
theorem test_decode_piperp :
    decode ⟨.piperp, 0x212345678⟩ = .ok (.piperp true false 0x12345678#32) ∧
    decode ⟨.piperp, 0x100040000⟩ = .ok (.piperp false true 0x00040000#32) := ⟨rfl, rfl⟩
/-- Section 2.13, `k=1` and `k=0`. -/
theorem test_decode_pipediv :
    decode ⟨.pipediv, 0x140004200720113A8B⟩ =
      .ok (.pipediv false true 0x4000#16 0x4200#16 0x7201#16 1#4 0x3A8B#16) ∧
    decode ⟨.pipediv, 0x200000000000000000⟩ = .ok (.pipediv true false 0#16 0#16 0#16 0#4 0#16) := ⟨rfl, rfl⟩

/-- A bare table word is read as the first row it fits (log 9), and refused if it fits none. -/
theorem test_table_word :
    decodeTableWord 32 0x3C004000 = some (.fadd 0x3C00#16 0x4000#16) ∧
    decodeTableWord 65 0x03C0040003800C200 = some (.max4 false 0x3C00#16 0x4000#16 0x3800#16 0xC200#16) ∧
    decodeTableWord 72 (2 ^ 71) = none := ⟨rfl, rfl, rfl⟩

/-! ### One step of each operation, with results from the tables of the spec -/

/-- The next state, if there is one. -/
def after (o : Host.Outcome State Fault Refusal) : Option State :=
  match o with
  | .next t => some t
  | .fault _ => none
  | .refused _ => none

/-- A field of the state that one operation leaves, executed on a given state. -/
def seen {α : Type} (i : Instr) (s : State) (f : State → α) : Option α := (after (exec i s)).map f

/-- Section 2.1: "2048 + 1.00098, above the tie, up"; "first NaN, sign and payload kept". -/
theorem test_fadd :
    seen (.fadd 0x6800 0x3C01) .reset (·.out.fadd) = some 0x6801 ∧
    seen (.fadd 0xFE01 0x7E02) .reset (·.out.fadd) = some 0xFE01 := by decide

/-- Section 2.1, last table: `P_SUBNORMAL_IN = NORMALIZE`. -/
theorem test_fadd_normalize :
    seen (.fadd 0x0001 0x0400) { State.reset with cfg := { Params.standard with subnormalIn := .normalize } }
      (·.out.fadd) = some 0x0401 := by decide

/-- Section 2.2: 1 - 2; a NaN in `b` is returned with its sign flipped. -/
theorem test_fsub :
    seen (.fsub 0x3C00 0x4000) .reset (·.out.fsub) = some 0xBC00 ∧
    seen (.fsub 0x3C00 0xFE01) .reset (·.out.fsub) = some 0x7E01 := by decide

/-- Section 2.3: 3.140625 squared; minus infinity times a subnormal taken as zero. -/
theorem test_fmul :
    seen (.fmul 0x4248 0x4248) .reset (·.out.fmul) = some 0x48EF ∧
    seen (.fmul 0xFC00 0x8001) .reset (·.out.fmul) = some 0x7E00 := by decide

/-- Section 2.3, last table: `P_SUBNORMAL_IN = NORMALIZE`. -/
theorem test_fmul_normalize :
    seen (.fmul 0x0001 0x7BFF) { State.reset with cfg := { Params.standard with subnormalIn := .normalize } }
      (·.out.fmul) = some 0x1BFF := by decide

/-- Section 2.4: both negative; a sign-1 NaN loses. -/
theorem test_fmax :
    seen (.fmax 0xC200 0xBC00) .reset (·.out.fmax) = some 0xBC00 ∧
    seen (.fmax 0xFBFF 0xFE00) .reset (·.out.fmax) = some 0xFBFF := by decide

/-- Section 2.5. -/
theorem test_lod :
    seen (.lod 0x0005C200) .reset (·.out.lod) = some ⟨2, false, 0x388B⟩ ∧
    seen (.lod 0x00008000) .reset (·.out.lod) = some ⟨0, true, 0x3A8B⟩ := by decide

/-- Section 2.6: "by the carry rule (bare window would give 0)"; 3.0. -/
theorem test_log2 :
    seen (.log2 0x49C0) .reset (·.out.log2) = some 15 ∧
    seen (.log2 0x4200) .reset (·.out.log2) = some 4 := by decide

/-- Section 2.7, rows 1 and 2. -/
theorem test_max4 :
    seen (.max4 false 0x3C00 0x4000 0x3800 0xC200) .reset (·.max4) = some ⟨0x4000, 0x3800⟩ ∧
    seen (.max4 true 0x4400 0 0 0) (State.reset.withMax4 ⟨0xBC00, 0xC200⟩) (fun t => (t.max4, t.out.max4)) =
      some (⟨0, 0⟩, 0xBC00) := by decide

/-- Section 2.8. -/
theorem test_expsum :
    seen (.expsum false 0x1234) (State.reset.withExpsum ⟨0x00018000, 0x00004200⟩) (fun t => (t.expsum, t.out.expsum)) =
      some (⟨0x00003000, 0x0000C000⟩, 0x0001C200) := by decide

/-- Section 2.9. -/
theorem test_rdiv :
    seen (.rdiv 7 2 0x388B) .reset (·.out.rdiv) = some 0x148B ∧
    seen (.rdiv 14 0 0x388B) .reset (·.out.rdiv) = some 0x008B := by decide

/-- Section 2.9, second table: the 5-bit `ky` inside PIPEDIV. -/
theorem test_rdiv_wide : approxDivide 16 0 0x7BFF = 0x3BFF ∧ approxDivide 30 15 0x7FFF = 0x03FF := by decide

/-- Section 2.10, `k=4`: "a lower value overwrites its slot but not `GMAX`". -/
theorem test_rmaxwr :
    seen (.rmaxwr false true 5 0xC600) (State.reset.withRmax ⟨[(5, 0xC000), (6, 0xC400)], 0xC000⟩) (·.rmax) =
      some ⟨[(5, 0xC600), (6, 0xC400)], 0xC000⟩ := by decide

/-- Section 2.10, `k=6` and `k=7`, read at `k=8`: "a sign-0 NaN wins `GMAX`"; reset clears (R213). -/
theorem test_rmaxwr_nan_and_reset :
    seen (.rmaxwr false true 1 0x7E00) (State.reset.withRmax ⟨[(0, 0xFE00)], 0x3C00⟩) (·.rmax) =
      some ⟨[(0, 0xFE00), (1, 0x7E00)], 0x7E00⟩ ∧
    seen (.rmaxwr true true 1 0x7E00) (State.reset.withRmax ⟨[(0, 0xFE00)], 0x3C00⟩) (·.rmax) =
      some ⟨[], 0xFBFF⟩ := by decide

/-- Section 2.10, `k=6`. -/
theorem test_rmaxrd :
    seen (.rmaxrd 1023) (State.reset.withRmax ⟨[(5, 0xC600), (1023, 0x3C00)], 0x3C00⟩) (·.out.rmaxrd) =
      some ⟨0x3C00, 0x3C00⟩ := by decide

/-- Section 2.11, row 2: the differences of the row in `S2`, `gmax_in` at its reset value. -/
theorem test_pipema_differences :
    seen (.pipema false false 0 0xFBFF 0)
      (State.reset.withPipema { PipeMaRegs.reset with s2 := ⟨true, 7, ⟨0x3C00, 0x4000, 0x3800, 0xC200⟩, 0x4000, 0x3800⟩ })
      (fun t => (t.pipema.s3, t.out.pipema.maxData)) =
      some (⟨true, 7, ⟨0xBC00, 0x0000, 0xBE00, 0xC500⟩, 0x7BFF⟩, 0x4000) := by decide

/-- Section 2.11: `ACC = 0x0001C200`, `sh = 1`, tree 0x00025000 gives 0x00033100; codes 0, 4, 0, 2 pack to 0x2040. -/
theorem test_pipema_accumulates :
    seen (.pipema false true 3 0 0xC200380040003C00)
      (State.reset.withPipema { PipeMaRegs.reset with
        s4 := ⟨true, 1, ⟨0, 4, 0, 2⟩, 1⟩, s5 := ⟨true, 0, 0x2040, 1, 0x00011000, 0x00014000⟩, acc := 0x0001C200 })
      (fun t => (t.pipema.s1, t.pipema.s5, t.pipema.acc)) =
      some (⟨true, 3, ⟨0x3C00, 0x4000, 0x3800, 0xC200⟩⟩, ⟨true, 1, 0x2040, 1, 0x00011000, 0x00014000⟩, 0x00033100) := by
  decide

/-- P4: 0x00033100 samples to (1, 0x3A8B); stall holds the pair; reset overrides stall. -/
theorem test_piperp :
    seen (.piperp false false 0x00033100) .reset (·.piperp) = some ⟨1, 0x3A8B⟩ ∧
    seen (.piperp false true 0x00040000) (State.reset.withPiperp ⟨1, 0x3A8B⟩) (·.piperp) = some ⟨1, 0x3A8B⟩ ∧
    seen (.piperp true true 0x00033100) (State.reset.withPiperp ⟨1, 0x3A8B⟩) (·.piperp) = some ⟨0, 0⟩ := by decide

/-- Section 2.13, row 1: `T3.sum` = 2, 1, 3, 8 with `ks = 1`, `thr = 0x3A8B`. -/
theorem test_pipediv_divides :
    seen (.pipediv false true 0x4000 0x4200 0x7201 1 0x3A8B)
      (State.reset.withPipediv { PipeDivRegs.reset with t2 := ⟨true, 1, 0x7201⟩, t3 := ⟨true, ⟨2, 1, 3, 8⟩⟩ })
      (fun t => (t.pipediv.t1, t.pipediv.t3, t.pipediv.t4)) =
      some (⟨true, 0xBC00, 0x7201⟩, ⟨true, ⟨2, 1, 3, 8⟩⟩, ⟨true, ⟨0x2E8B, 0x328B, 0x2A8B, 0x168B⟩⟩) := by decide

/-- Section 2.13, row 1: the output word. -/
theorem test_pipediv_packs :
    seen (.pipediv false false 0 0 0 0 0)
      (State.reset.withPipediv { PipeDivRegs.reset with t4 := ⟨true, ⟨0x2E8B, 0x328B, 0x2A8B, 0x168B⟩⟩ })
      (·.pipediv.t5) = some ⟨true, 0x168B2A8B328B2E8B⟩ := by decide

/-- The step fetches and runs the word placed: 1 + 2 = 3. -/
theorem test_fetch_word_runs :
    (after (step (State.reset.withFetchWord 32 0x3C004000))).map (·.out.fadd) = some 0x4200 := by decide

/-- R234 and R312: one edge after reset, with nothing presented, `S5` holds the partial sums of four codes 0. -/
theorem test_edge_after_reset :
    (after (step .reset)).map (fun t => (t.pipema.s5.p01, t.pipema.s5.p23, t.pipema.acc, t.pipediv.t5.v)) =
      some (0x00020000, 0x00020000, 0, false) := by decide

/-- R314: what `State.reset` has on its output ports is what they show in the first cycle with 0 on every input port. -/
theorem test_outputs_at_reset : (after (step .reset)).map (·.out) = some State.reset.out := by decide

/-- P5, cycle 9: PIPEDIV takes slot 0, VEC word 0 and `GMAX` while every other unit is clocked as well. -/
theorem test_second_pass_edge :
    (after (edge ({ Cycle.zero with wires := .reference }.give (.pipediv false true 0 0 0 0 0))
      (((State.reset.withRmax ⟨[(0, 0x4000), (1, 0x4200)], 0x4200⟩).withVec [(0, 0x7201), (1, 0x2040)]).withPiperp
        ⟨1, 0x3A8B⟩))).map (fun t => (t.pipediv.t1, t.pipediv.t4.q.l0, t.out.piperp)) =
      some (⟨true, 0xBC00, 0x7201⟩, 0x368B, ⟨1, 0x3A8B⟩) := by decide

/-! ### Witnesses: states and operands that meet the hypotheses of the statements -/

/-- Both clauses, at the boundary of the record's width. -/
theorem test_witness_FittingRecordsDecodeAndReencode :
    Record.wf ⟨.rdiv, 0xFFFFFF⟩ = true ∧ Record.wf ⟨.rdiv, 0x1000000⟩ = false := by decide

/-- A cycle with a record on the ports of RDIV. -/
theorem test_witness_StepRunsPresentedRecord :
    let c := Cycle.zero.present ⟨.rdiv, 0x72388B⟩
    (State.reset.withStim [c]).stim = c :: [] ∧ decode (c.record .rdiv) = .ok (.rdiv 7#4 2#4 0x388B#16) := ⟨rfl, rfl⟩

/-- A state with a row in flight and a cycle to come. -/
theorem test_witness_StepKeepsMachineInvariant :
    let s := (State.reset.withRmax ⟨[(7, 0x4000)], 0x4000⟩).withStim [Cycle.zero.present ⟨.rmaxwr, 0x405C000⟩]
    s.inv = true ∧ (after (step s)).isSome = true := by decide

theorem test_witness_EmptyStimulusClocksHeldPorts :
    State.reset.stim = [] ∧ State.reset.ports.pipema.getLsbD 91 = false := ⟨rfl, by decide⟩

theorem test_witness_OperationsChangeOnlyTheirUnit :
    ∃ t, exec (.max4 false 0x3C00 0x4000 0x3800 0xC200) State.reset = .next t := ⟨_, rfl⟩

/-- RMAXRD on two states that differ in another unit. -/
theorem test_witness_OperationsReadOnlyTheirUnit :
    let i : Instr := .rmaxrd 5
    let s := State.reset.withRmax ⟨[(5, 0xC000)], 0xC000⟩
    let u := s.withPiperp ⟨1, 0x3A8B⟩
    Memory.wf s.rmax.slot = true ∧ Memory.wf u.rmax.slot = true ∧ u.cfg = s.cfg ∧ SameUnit i.op s u ∧
      (i.op = .rmaxrd → SameUnit .rmaxwr s u) :=
  ⟨by decide, by decide, rfl, rfl, fun _ => ⟨rfl, fun _ => rfl⟩⟩

/-- One pair of operands for each clause, in their order. -/
theorem test_witness_FaddSpecialOperands :
    isNaN 0x7C01 = true ∧
    (isNaN 0x7C00 = false ∧ isNaN 0xFFFF = true) ∧
    (isInf 0x7C00 = true ∧ isInf 0xFC00 = true ∧ sign 0x7C00 ≠ sign 0xFC00) ∧
    (isInf 0xFC00 = true ∧ isNaN 0xFC00 = false ∧ sign 0xFC00 = sign 0xFC00) ∧
    (isNaN 0x7BFF = false ∧ isInf 0x7BFF = false ∧ isInf 0x7C00 = true) ∧
    (isZeroClass State.reset.cfg 0x8000 = true ∧ isZeroClass State.reset.cfg 0x03FF = true) ∧
    (isZeroClass State.reset.cfg 0x0000 = true ∧ nonzeroFinite State.reset.cfg 0x0400 = true) ∧
    (nonzeroFinite State.reset.cfg 0x7BFF = true ∧ isZeroClass State.reset.cfg 0x8000 = true) := by decide

/-- The least and the greatest magnitude; under `NORMALIZE` a subnormal too. -/
theorem test_witness_FaddRoundsExactSum :
    nonzeroFinite State.reset.cfg 0x0400 = true ∧ nonzeroFinite State.reset.cfg 0xFBFF = true ∧
    nonzeroFinite { Params.standard with subnormalIn := .normalize } 0x0001 = true := by decide

theorem test_witness_FaddCommutes :
    ¬ (isNaN 0x7E01 = true ∧ isNaN 0x3C00 = true) ∧
    ¬ (isInf 0x7C00 = true ∧ isInf 0x3C00 = true ∧ sign 0x7C00 ≠ sign 0x3C00) := by decide

/-- One operand for each clause. -/
theorem test_witness_OppositeOperandsCancel :
    isNorm 0x0400 = true ∧ isNorm 0xFBFF = true ∧ isInf 0x7C00 = true ∧ isZero 0x8000 = true := by decide

/-- One pair of operands for each clause, in their order. -/
theorem test_witness_FmulSpecialOperands :
    isNaN 0xFC01 = true ∧
    (isNaN 0x3C00 = false ∧ isNaN 0x7E55 = true) ∧
    (isInf 0x7C00 = true ∧ isZeroClass State.reset.cfg 0x03FF = true) ∧
    (isZeroClass State.reset.cfg 0x8000 = true ∧ isInf 0xFC00 = true) ∧
    (isInf 0xFC00 = true ∧ nonzeroFinite State.reset.cfg 0x0400 = true) ∧
    (nonzeroFinite State.reset.cfg 0xFBFF = true ∧ isInf 0x7C00 = true) ∧
    (isZeroClass State.reset.cfg 0x0000 = true ∧ isZeroClass State.reset.cfg 0x83FF = true) ∧
    (nonzeroFinite State.reset.cfg 0x7BFF = true ∧ isZeroClass State.reset.cfg 0x8000 = true) := by decide

theorem test_witness_FmulRoundsExactProduct :
    nonzeroFinite State.reset.cfg 0x0400 = true ∧ nonzeroFinite State.reset.cfg 0x7BFF = true := by decide

theorem test_witness_FmulCommutes : ¬ (isNaN 0x7E01 = true ∧ isNaN 0x7C00 = true) := by decide

/-- Both clauses, where they meet. -/
theorem test_witness_LodFindsLeadingOne :
    (0x0000FFFF#32).toNat / 2 ^ 16 = 0 ∧ (0x00010000#32).toNat / 2 ^ 16 ≠ 0 := by decide

/-- The exponent fields 13, 14, 18 and 19, where the clauses meet, with the codes of section 2.6. -/
theorem test_witness_Log2FollowsClosedForm :
    log2Code 0x37FF = 0 ∧ log2Code 0x3800 = 0 ∧ log2Code 0x4800 = 11 ∧ log2Code 0x4BFF = 15 ∧ log2Code 0x4C00 = 15 := by
  decide

theorem test_witness_Log2IgnoresSignAndIsMonotone :
    (0xC000#16).toNat % 2 ^ 15 ≤ (0x4000#16).toNat % 2 ^ 15 := by decide

theorem test_witness_RdivNeverRaisesExponent : 15 + 15 ≤ 30 + 1 := by decide

/-- The three clauses are for a reset, a write, and neither. -/
theorem test_witness_RmaxWriteUpdatesSlotAndMaximum :
    Memory.wf (State.reset.withRmax ⟨[(0, 0xFE00), (1023, 0x3C00)], 0x3C00⟩).rmax.slot = true := by decide

theorem test_witness_SlotReadInWriteCycleShowsOldValue :
    Memory.wf (State.reset.withRmax ⟨[(5, 0xC000)], 0xC000⟩).rmax.slot = true := by decide

theorem test_witness_DistinctSlotsKeepEveryWrite :
    let ws : List (SlotAddr × Fp16) := [(0, 0x3C00), (1023, 0x0000)]
    Memory.wf (State.reset.withRmax ⟨[(1023, 0xC000)], 0xC000⟩).rmax.slot = true ∧ (ws.map Prod.fst).Nodup := by decide

theorem test_witness_EqualReadsMeanEqualMemories :
    let m : Slots := [(5, 0xC000)]
    Memory.wf m = true ∧ ∀ n, readSlots m n = readSlots m n := ⟨by decide, fun _ => rfl⟩

/-- At the upper end of both bounds of `S5`. -/
theorem test_witness_AccumulatorNeverWraps :
    let s := State.reset.withPipema { PipeMaRegs.reset with s5 := ⟨true, 0, 0, 0, 0x20000, 0x20000⟩ }
    let xs : List MaInput := [⟨true, 1, 0x4000, 0xC200380040003C00⟩]
    xs.length < 16383 ∧ s.pipema.acc = 0 ∧ s.pipema.s5.p01.toNat ≤ 0x20000 ∧ s.pipema.s5.p23.toNat ≤ 0x20000 := by
  decide

theorem test_witness_BubblesLeaveAccumulatorAlone :
    let s := State.reset.withPipema { PipeMaRegs.reset with acc := 0x0001C200 }
    let xs : List MaInput := [⟨false, 1, 0x4000, 0xC200380040003C00⟩, ⟨false, 0, 0, 0⟩]
    (∀ x ∈ xs, x.inValid = false) ∧ s.pipema.s1.v = false ∧ s.pipema.s2.v = false ∧ s.pipema.s3.v = false ∧
      s.pipema.s4.v = false ∧ s.pipema.s5.v = false := by decide

theorem test_witness_StallHoldsThePair : ([0x00040000, 0x00000000] : List Fixed) ≠ [] := by decide

/-- A cycle with every reset pin at 1: the records of P1 to P5 that reset, and VEC's pin. -/
def allReset : Cycle :=
  { Cycle.zero with
    wires := .reference, vecReset := true, max4 := 0x14400000000000000, expsum := 0x10000, rmaxwr := 0x8000000
    pipema := 0x80000000000000000000000, piperp := 0x212345678, pipediv := 0x200000000000000000 }

/-- A cycle that meets all seven hypotheses. -/
theorem test_witness_ResetPinResetsItsUnit : (∀ p ∈ resetPins allReset, p = true) ∧ allReset.vecReset = true := by
  decide

/-- Cycles that meet the hypotheses for the pipelines and the trees, PIPERP held and PIPERP sampling. -/
theorem test_witness_EveryRankAdvancesAtEveryStep :
    (∀ p ∈ resetPins Cycle.zero, p = false) ∧ Cycle.zero.piperp.getLsbD 32 = false ∧
    (∀ p ∈ resetPins (Cycle.zero.give (.piperp false true 0x00040000)), p = false) ∧
    (Cycle.zero.give (.piperp false true 0x00040000)).piperp.getLsbD 32 = true := by decide

theorem test_witness_FirstEdgeAfterResetComputesZeroRecord :
    (Cycle.zero.give (.pipema false true 7 0xFBFF 0xC200380040003C00)).pipema.getLsbD 91 = false := by decide

/-- A VEC with its first and last word written. -/
theorem test_witness_VecFollowsPlainMemoryContract :
    Memory.wf (State.reset.withVec [(0, 0x7201), (1023, 0x2040)]).vec = true := by decide

theorem test_witness_FixedWiresFeedRunningMaximum : Memory.wf State.reset.rmax.slot = true := by decide

theorem test_witness_ReferenceWiresFeedSecondPass :
    Memory.wf (State.reset.withVec [(0, 0x7201), (1, 0x2040)]).vec = true := by decide

/-- Two states that differ in every kind of register the run forgets. -/
theorem test_witness_RunForgetsStateBeforeReset :
    let u := ((State.reset.withRmax ⟨[(7, 0x4000)], 0x4000⟩).withPiperp ⟨1, 0x3A8B⟩).withVec [(0, 0x7201)]
    u.cfg = State.reset.cfg ∧ allReset.vecReset = true ∧ ∀ p ∈ resetPins allReset, p = true := by decide

/-- The two rows of P5 and a bubble that repeats an address. -/
theorem test_witness_FirstPassFindsEveryMaximum :
    let rows : List MaInput := [⟨true, 0, 0, 0xC200380040003C00⟩, ⟨false, 0, 0, 0⟩, ⟨true, 1, 0, 0x3C00410000004200⟩]
    OneSlotPerRow ((rows.map fun r => (r, Cycle.zero)).map Prod.fst) := by
  unfold OneSlotPerRow; decide

end Sys2Proof.Tests
end

section
/-!
PROOFS of the statements about the state and the clock edge (`10_state.md`): what one operation leaves alone, what one edge
commits, and what a run forgets.
-/

namespace Sys2Proof.Machine

/-! ### What an operation leaves alone and what it reads -/

/-- Every unit of a state is as it is. -/
theorem SameUnit.refl (op : Op) (s : State) : SameUnit op s s := by
  cases op <;> simp [SameUnit]

/-- Every update an operation makes is to fields of its own unit, so the fields of any other unit are by definition those
of the state before. -/
theorem exec_keeps_other_units (i : Instr) (s t : State) (h : exec i s = .next t) (other : Op) (hne : other ≠ i.op) :
    SameUnit other s t := by
  have hself := SameUnit.refl other s
  cases i <;> cases h <;> cases other <;> first | exact absurd rfl hne | exact hself

/-- No operation touches VEC, the parameters, the input ports or the stimulus. -/
theorem exec_keeps_surroundings (i : Instr) (s t : State) (h : exec i s = .next t) :
    t.vec = s.vec ∧ t.cfg = s.cfg ∧ t.ports = s.ports ∧ t.stim = s.stim := by
  cases i <;> cases h <;> exact ⟨rfl, rfl, rfl, rfl⟩

/-- `GMAX` after an edge of RMAX without reset (R211). -/
theorem gmax_nextRmax (we : Bool) (waddr : SlotAddr) (wdata : Fp16) (r : RmaxRegs) :
    (nextRmax false we waddr wdata r).gmax = if we then fpMax r.gmax wdata else r.gmax := by
  cases we <;> rfl

/-- Every slot after an edge of RMAX without reset (R211, R63). -/
theorem readSlots_nextRmax (we : Bool) (waddr : SlotAddr) (wdata : Fp16) {r : RmaxRegs} (hr : Memory.wf r.slot = true)
    (n : Nat) :
    readSlots (nextRmax false we waddr wdata r).slot n =
      if we = true ∧ n = waddr.toNat then wdata else readSlots r.slot n := by
  cases we with
  | false => simp [nextRmax]
  | true => simp [nextRmax, read_write hr]

/-- The next running-maximum state depends on `GMAX` and on what the slots read, not on how a canonical memory lists
them (log 6). -/
theorem nextRmax_congr {r q : RmaxRegs} (reset we : Bool) (waddr : SlotAddr) (wdata : Fp16)
    (hr : Memory.wf r.slot = true) (hq : Memory.wf q.slot = true) (hgmax : q.gmax = r.gmax)
    (hslot : ∀ n, readSlots q.slot n = readSlots r.slot n) :
    (nextRmax reset we waddr wdata q).gmax = (nextRmax reset we waddr wdata r).gmax ∧
    ∀ n, readSlots (nextRmax reset we waddr wdata q).slot n = readSlots (nextRmax reset we waddr wdata r).slot n := by
  cases reset with
  | true => exact ⟨rfl, fun _ => rfl⟩
  | false =>
    refine ⟨?_, fun n => ?_⟩
    · rw [gmax_nextRmax, gmax_nextRmax, hgmax]
    · rw [readSlots_nextRmax _ _ _ hq, readSlots_nextRmax _ _ _ hr, hslot]

/-! ### The instruction on the ports of one operation -/

/-- The instruction a cycle presents to one operation. -/
def presentedTo (c : Cycle) (op : Op) : Instr := splitRecord op (c.record op).bits

/-- What a cycle has on an operation's ports is one of the instructions it presents. -/
theorem presentedTo_mem (c : Cycle) (op : Op) : presentedTo c op ∈ presented c := by
  cases op <;> simp [presentedTo, Cycle.record, splitRecord, presented]

@[simp] theorem presentedTo_op (c : Cycle) (op : Op) : (presentedTo c op).op = op := by
  cases op <;> rfl

/-- The record on every operation's ports fits its width, so it decodes (R92). -/
theorem decode_record (c : Cycle) (op : Op) : decode (c.record op) = .ok (presentedTo c op) := by
  have hop : (c.record op).op = op := by cases op <;> rfl
  have hwf : (c.record op).wf = true := by
    cases op <;> exact decide_eq_true (BitVec.isLt _)
  simp [decode, hwf, hop, presentedTo]

/-- The record of every instruction is one of its operation and fits its width. -/
theorem encode_fits : ∀ i : Instr, Laws.EncodeFits.Statement i
  | .fadd .. => Laws.EncodeFits.fadd ..
  | .fsub .. => Laws.EncodeFits.fsub ..
  | .fmul .. => Laws.EncodeFits.fmul ..
  | .fmax .. => Laws.EncodeFits.fmax ..
  | .lod .. => Laws.EncodeFits.lod ..
  | .log2 .. => Laws.EncodeFits.log2 ..
  | .max4 .. => Laws.EncodeFits.max4 ..
  | .expsum .. => Laws.EncodeFits.expsum ..
  | .rdiv .. => Laws.EncodeFits.rdiv ..
  | .rmaxwr .. => Laws.EncodeFits.rmaxwr ..
  | .rmaxrd .. => Laws.EncodeFits.rmaxrd ..
  | .pipema .. => Laws.EncodeFits.pipema ..
  | .piperp .. => Laws.EncodeFits.piperp ..
  | .pipediv .. => Laws.EncodeFits.pipediv ..

/-- Splitting the concatenation of the ports gives the ports back (R88): every port's slice lies within one part of the
concatenation and is the whole of it. -/
theorem splitRecord_encode (i : Instr) : splitRecord i.op (encode i).bits = i := by
  cases i <;>
    simp (disch := decide) only [Instr.op, splitRecord, encode, decodeFadd, decodeFsub, decodeFmul, decodeFmax, decodeLod,
      decodeLog2, decodeMax4, decodeExpsum, decodeRdiv, decodeRmaxwr, decodeRmaxrd, decodePipema, decodePiperp,
      decodePipediv, BitVec.ofNat_toNat, BitVec.setWidth_eq, BitVec.extractLsb'_append_eq_of_add_le,
      BitVec.extractLsb'_append_eq_of_le, BitVec.extractLsb'_eq_self, BitVec.getLsbD_append, BitVec.getLsbD_ofBool,
      Nat.reduceSub, Nat.reduceLT, if_true, if_false, decide_true, Bool.true_and]

/-- The operands given to an operation are what the cycle then presents to it. -/
theorem presentedTo_give (c : Cycle) (i : Instr) : presentedTo (c.give i) i.op = i := by
  obtain ⟨hop, hwf⟩ := encode_fits i
  have hrecord : (c.give i).record i.op = encode i := hop ▸ record_present c (encode i) hwf
  rw [presentedTo, hrecord, splitRecord_encode]

/-- Operands given to one operation leave what is presented to the others. -/
theorem presentedTo_give_other (c : Cycle) (i : Instr) {op : Op} (h : op ≠ i.op) :
    presentedTo (c.give i) op = presentedTo c op := by
  rw [presentedTo, Cycle.give, record_present_other c (encode i) h, presentedTo]

@[simp] theorem give_wires (c : Cycle) (i : Instr) : (c.give i).wires = c.wires := by
  cases i <;> rfl

/-! ### One edge -/

/-- One edge leaves each unit as the instruction on its settled ports leaves it when executed alone on the registers of the
last edge; what the harness has put on the ports or has still to present does not matter to it. -/
theorem edge_commits_unit {c : Cycle} {s t : State} {cs : List Cycle} {p : Cycle}
    (h : edge c ((s.withStim cs).withPorts p) = .next t) (op : Op) :
    ∃ u, exec (settleInputs c.wires c.rmaxrd s (presentedTo c op)) s = .next u ∧ SameUnit op u t := by
  rw [edge_eq] at h
  cases h
  cases op <;> exact ⟨_, rfl, by simp [SameUnit, Cycle.record]⟩

/-! ### Bubbles -/

/-- No rank of PIPEMA holds a valid row. -/
def NoValidRank (r : PipeMaRegs) : Prop :=
  r.s1.v = false ∧ r.s2.v = false ∧ r.s3.v = false ∧ r.s4.v = false ∧ r.s5.v = false

/-- One edge with a bubble on the ports: the valid bits move one rank on, and `ACC` adds nothing (R232, R234). -/
theorem nextPipema_bubble (p : Params) (addr : SlotAddr) (gmax : Fp16) (word : RowWord) {r : PipeMaRegs}
    (h : NoValidRank r) :
    NoValidRank (nextPipema p false false addr gmax word r) ∧
      (nextPipema p false false addr gmax word r).acc = r.acc := by
  obtain ⟨h1, h2, h3, h4, h5⟩ := h
  exact ⟨⟨rfl, h1, h2, h3, h4⟩, by simp [nextPipema, nextAcc, h5]⟩

/-- Any number of bubbles leaves `ACC`, and no rank becomes valid. -/
theorem execAll_bubbles (xs : List MaInput) (s : State) (hxs : ∀ x ∈ xs, x.inValid = false) (hs : NoValidRank s.pipema) :
    Completes (execAll (xs.map MaInput.op) s) fun t => t.pipema.acc = s.pipema.acc ∧ NoValidRank t.pipema := by
  induction xs generalizing s with
  | nil => exact ⟨s, rfl, rfl, hs⟩
  | cons x xs ih =>
    obtain ⟨hx, hxs⟩ := List.forall_mem_cons.mp hxs
    obtain ⟨hvalid, hacc⟩ := nextPipema_bubble s.cfg x.inAddr x.gmaxIn x.inWord hs
    rw [List.map_cons, MaInput.op, hx, execAll_cons_next (exec_pipema ..), ← hacc]
    exact ih _ hxs hvalid

/-! ### Runs -/

/-- The step does not read what the output ports showed: every port is driven anew (R31). -/
theorem step_withOut (s : State) (o : Outputs) : step (s.withOut o) = step s := by
  rw [step, step, edge_eq, edge_eq]
  rfl

/-- Every step completes (R280). -/
theorem step_completes (s : State) : ∃ t, step s = .next t := ⟨_, edge_eq (nextCycle s) (beginCycle s)⟩

/-- A run is its first step and the run from there. -/
theorem run_succ_of_step {s t : State} (h : step s = .next t) (k : Nat) :
    Sys2Proof.core.run (k + 1) s = Sys2Proof.core.run k t := by
  have hcore : Sys2Proof.core.step s = .next t := h
  simp only [Host.Core.run, hcore]

/-- Two states with the same step have the same runs from the first step on. -/
theorem run_succ_congr {s u : State} (h : step u = step s) (k : Nat) :
    Sys2Proof.core.run (k + 1) u = Sys2Proof.core.run (k + 1) s := by
  obtain ⟨t, ht⟩ := step_completes s
  rw [run_succ_of_step ht, run_succ_of_step (h.trans ht)]

/-- Every run completes (R280). -/
theorem run_completes (k : Nat) (s : State) : ∃ t, Sys2Proof.core.run k s = .next t := by
  induction k generalizing s with
  | zero => exact ⟨s, rfl⟩
  | succ k ih =>
    obtain ⟨t, ht⟩ := step_completes s
    rw [run_succ_of_step ht]
    exact ih t

/-- The state after a cycle that resets every unit and VEC: nothing of the registers before it is left (R42, R315). -/
def State.afterReset (p : Params) (c : Cycle) (cs : List Cycle) (o : Outputs) : State :=
  { State.reset with cfg := p, ports := c, out := o, stim := cs }

/-- A cycle that resets every unit and VEC leads to that state. -/
theorem step_of_resetPins {c : Cycle} (cs : List Cycle) (s : State) (hvec : c.vecReset = true)
    (hpins : ∀ p ∈ resetPins c, p = true) :
    ∃ o, step (s.withStim (c :: cs)) = .next (State.afterReset s.cfg c cs o) := by
  simp only [resetPins, List.forall_mem_cons] at hpins
  obtain ⟨hmax4, hexpsum, hrmax, hpipema, hpiperp, hpipediv, -⟩ := hpins
  have hnext : nextVec c (beginCycle (s.withStim (c :: cs))) = [] := if_pos hvec
  have hcycle : nextCycle (s.withStim (c :: cs)) = c := rfl
  rw [step, hcycle, edge_eq, hmax4, hexpsum, hrmax, hpipema, hpiperp, hpipediv, hnext]
  exact ⟨_, rfl⟩

/-! ### The statements -/

/-- Settles O14: each operation's updates are to its own unit (R20, R25). -/
theorem operationsChangeOnlyTheirUnit : Obligations.OperationsChangeOnlyTheirUnit := by
  intro i s t h
  obtain ⟨hvec, hcfg, hports, hstim⟩ := exec_keeps_surroundings i s t h
  exact ⟨exec_keeps_other_units i s t h, fun n => by rw [hvec], hcfg, hports, hstim⟩

/-- Settles O15: the equation of each meaning (R20) mentions the inputs, the parameters and the unit's own registers only. -/
theorem operationsReadOnlyTheirUnit : Obligations.OperationsReadOnlyTheirUnit := by
  intro i s u hs hu hcfg hunit hrmax
  cases i with
  | fadd a b => exact ⟨_, _, rfl, rfl, by simp [Instr.op, SameUnit, hcfg]⟩
  | fsub a b => exact ⟨_, _, rfl, rfl, by simp [Instr.op, SameUnit, hcfg]⟩
  | fmul a b => exact ⟨_, _, rfl, rfl, by simp [Instr.op, SameUnit, hcfg]⟩
  | fmax a b => exact ⟨_, _, rfl, rfl, rfl⟩
  | lod x => exact ⟨_, _, rfl, rfl, by simp [Instr.op, SameUnit, hcfg]⟩
  | log2 x => exact ⟨_, _, rfl, rfl, rfl⟩
  | rdiv ky ks thr => exact ⟨_, _, rfl, rfl, rfl⟩
  | max4 reset a b c d =>
    obtain ⟨hregs, -⟩ := hunit
    exact ⟨_, _, exec_max4 .., exec_max4 .., by simp [Instr.op, SameUnit, hregs]⟩
  | expsum reset vec =>
    obtain ⟨hregs, -⟩ := hunit
    exact ⟨_, _, exec_expsum .., exec_expsum .., by simp [Instr.op, SameUnit, hregs]⟩
  | rmaxwr reset we waddr wdata =>
    obtain ⟨hgmax, hslot⟩ := hunit
    exact ⟨_, _, rfl, rfl, nextRmax_congr reset we waddr wdata hs hu hgmax hslot⟩
  | rmaxrd raddr =>
    obtain ⟨hgmax, hslot⟩ := hrmax rfl
    exact ⟨_, _, exec_rmaxrd .., exec_rmaxrd .., by simp [Instr.op, SameUnit, readRmax, hgmax, hslot]⟩
  | pipema reset inValid inAddr gmaxIn inWord =>
    obtain ⟨hregs, -⟩ := hunit
    exact ⟨_, _, exec_pipema .., exec_pipema .., by simp [Instr.op, SameUnit, hregs, hcfg]⟩
  | piperp reset stall xIn =>
    obtain ⟨hregs, -⟩ := hunit
    exact ⟨_, _, exec_piperp .., exec_piperp .., by simp [Instr.op, SameUnit, hregs, hcfg]⟩
  | pipediv reset inValid lmaxIn gmaxIn kyIn ksIn thrIn =>
    obtain ⟨hregs, -⟩ := hunit
    exact ⟨_, _, exec_pipediv .., exec_pipediv .., by simp [Instr.op, SameUnit, hregs, hcfg]⟩

/-- Settles O5: the step is the edge on the decoded records (R40, R88), see `decode_record` and `edge_commits_unit`. -/
theorem stepRunsPresentedRecord : Obligations.StepRunsPresentedRecord := by
  intro s c rest op hstim
  have hcycle : nextCycle s = c := by simp [nextCycle, hstim]
  have hstep : step s = edge c ((s.withStim rest).withPorts c) := by
    simp [step, beginCycle, hcycle, hstim]
  obtain ⟨u, hexec, hunit⟩ := edge_commits_unit (edge_eq c ((s.withStim rest).withPorts c)) op
  refine ⟨presentedTo c op, u, _, decode_record c op, presentedTo_op c op, hexec, ?_, hstep.trans (edge_eq ..), hunit,
    rfl, rfl, rfl, rfl⟩
  intro hw
  rw [hw, settleInputs_standalone]

/-- Settles O7: the 14 operations commit at once (R40, R22); see `edge_commits_unit`. -/
theorem edgeCommitsAllUnitsAtOnce : Obligations.EdgeCommitsAllUnitsAtOnce := by
  intro c s
  refine ⟨_, edge_eq c s, rfl, rfl, rfl, rfl, fun op => ?_⟩
  exact ⟨_, List.mem_map_of_mem (presentedTo_mem c op), by simp, edge_commits_unit (edge_eq c s) op⟩

/-- Settles O11: without reset (and, for PIPERP, stall) a unit's next value is that of its ranks (R22, R312). -/
theorem everyRankAdvancesAtEveryStep : Obligations.EveryRankAdvancesAtEveryStep := by
  intro s
  refine ⟨_, edge_eq (nextCycle s) (beginCycle s), ?pipema, ?pipediv, ?max4, ?expsum, ?held, ?sampled⟩ <;> intro h <;>
    rw [h]
  case pipema => exact ⟨rfl, rfl, rfl, rfl, rfl, rfl⟩
  case pipediv => exact ⟨rfl, rfl, rfl, rfl, rfl⟩
  case max4 => exact ⟨rfl, rfl⟩
  case expsum => rfl
  case held => intro hstall; rw [hstall]; rfl
  case sampled => intro hstall; rw [hstall]; exact ⟨rfl, rfl⟩

/-- Settles O13: what the edge leaves on the output ports (R31) is what `edge_eq` says. -/
theorem everyOutputPortIsDrivenAtEveryStep : Obligations.EveryOutputPortIsDrivenAtEveryStep :=
  fun s => ⟨_, edge_eq (nextCycle s) (beginCycle s), rfl, rfl, rfl, rfl, rfl, rfl, rfl, rfl, rfl, rfl, rfl, rfl, rfl⟩

/-- Settles O50: reset comes first in every unit's next value, and in VEC's (R42, R73). -/
theorem resetPinResetsItsUnit : Obligations.ResetPinResetsItsUnit := by
  intro c s
  refine ⟨_, edge_eq c s, ?max4, ?expsum, ?rmax, ?pipema, ?piperp, ?pipediv, ?vec⟩
  case vec =>
    intro h n
    have hnext : nextVec c s = [] := if_pos h
    simp [hnext]
  all_goals exact fun h => if_pos h

/-- Settles O53: RMAX executes the write PIPEMA's maximum ports drive (R226), PIPEMA takes its fifth difference against
`GMAX` (R228). -/
theorem fixedWiresFeedRunningMaximum : Obligations.FixedWiresFeedRunningMaximum := by
  intro c row we waddr wdata s hwf m
  generalize hd : (({ c with wires := .fixed }.give row.op).give (.rmaxwr false we waddr wdata)) = d
  have hw : d.wires = .fixed := by simp [← hd]
  have hrmax : presentedTo d .rmaxwr = .rmaxwr false we waddr wdata := by
    rw [← hd]; exact presentedTo_give _ (.rmaxwr false we waddr wdata)
  have hma : presentedTo d .pipema = row.op := by
    rw [← hd, presentedTo_give_other _ _ (by simp [Instr.op])]; exact presentedTo_give _ row.op
  obtain ⟨u, hu, hgmax, hslot⟩ := edge_commits_unit (edge_eq d s) .rmaxwr
  obtain ⟨v, hv, hregs, -⟩ := edge_commits_unit (edge_eq d s) .pipema
  rw [hw, hrmax] at hu
  rw [hw, hma] at hv
  cases hu
  cases hv
  refine ⟨_, edge_eq d s, fun n => ?_, ?_, ?_⟩
  · exact (hslot n).trans (readSlots_nextRmax _ _ _ hwf n)
  · exact hgmax.trans (gmax_nextRmax ..)
  · rw [hregs]; rfl

/-- Settles O54: PIPEDIV executes with the pair PIPERP's ports show, that of the last edge (R253, R265), while PIPERP takes
its own next pair. -/
theorem fixedWiresBroadcastHeldPair : Obligations.FixedWiresBroadcastHeldPair := by
  intro c row stall xIn s
  generalize hd : (({ c with wires := .fixed }.give (.piperp false stall xIn)).give row.op) = d
  have hw : d.wires = .fixed := by simp [← hd]
  have hdiv : presentedTo d .pipediv = row.op := by rw [← hd]; exact presentedTo_give _ row.op
  have hrp : presentedTo d .piperp = .piperp false stall xIn := by
    rw [← hd, presentedTo_give_other _ _ (by simp [Instr.op, DivInput.op])]
    exact presentedTo_give _ (.piperp false stall xIn)
  obtain ⟨u, hu, hdivRegs, -⟩ := edge_commits_unit (edge_eq d s) .pipediv
  obtain ⟨v, hv, hrpRegs, -⟩ := edge_commits_unit (edge_eq d s) .piperp
  rw [hw, hdiv] at hu
  rw [hw, hrp] at hv
  cases hu
  cases hv
  exact ⟨_, edge_eq d s, by rw [hdivRegs]; rfl, by rw [hrpRegs]; rfl⟩

/-- Settles O45, by induction over the bubbles (R30, R234). -/
theorem bubblesLeaveAccumulatorAlone : Obligations.BubblesLeaveAccumulatorAlone := by
  intro xs s hxs h1 h2 h3 h4 h5
  obtain ⟨t, ht, hacc, -, hs2, -, -, hs5⟩ := execAll_bubbles xs s hxs ⟨h1, h2, h3, h4, h5⟩
  exact ⟨t, ht, hacc, hs2, hs5⟩

/-- Settles O57: after the reset cycle the two runs' states differ in the output ports at most (R42), which the next step
does not read. -/
theorem runForgetsStateBeforeReset : Obligations.RunForgetsStateBeforeReset := by
  intro c cs s u hcfg hvec hpins
  obtain ⟨o, hs⟩ := step_of_resetPins cs s hvec hpins
  obtain ⟨o', hu⟩ := step_of_resetPins cs u hvec hpins
  rw [hcfg] at hu
  rw [run_succ_of_step hs, run_succ_of_step hu]
  cases cs with
  | nil => exact ⟨_, _, rfl, rfl, rfl, fun h => absurd rfl h⟩
  | cons c' cs =>
    have hsame : step (State.afterReset s.cfg c (c' :: cs) o') = step (State.afterReset s.cfg c (c' :: cs) o) :=
      step_withOut (State.afterReset s.cfg c (c' :: cs) o) o'
    obtain ⟨t, ht⟩ := run_completes (cs.length + 1) (State.afterReset s.cfg c (c' :: cs) o)
    exact ⟨t, t, ht, (run_succ_congr hsame cs.length).trans ht, rfl, fun _ => rfl⟩

end Sys2Proof.Machine
end

section
/-!
PROOFS of the statements about the memories (`20_memory.md`): the slot memory in a cycle with a read and a write, and the
vector memory VEC of the reference composition.
-/

namespace Sys2Proof.Machine

/-! ### What a cycle presents -/

@[simp] theorem give_vecReset (c : Cycle) (i : Instr) : (c.give i).vecReset = c.vecReset := by
  cases i <;> rfl

/-- The read address RMAX and VEC share in a cycle (D16) is the one the cycle presents to RMAXRD. -/
theorem rmaxrd_of_presentedTo {c : Cycle} {raddr : SlotAddr} (h : presentedTo c .rmaxrd = .rmaxrd raddr) :
    c.rmaxrd = raddr := by
  have hraddr : presentedTo c .rmaxrd = .rmaxrd c.rmaxrd := by
    simp [presentedTo, Cycle.record, splitRecord, decodeRmaxrd]
  exact Instr.rmaxrd.inj (hraddr.symm.trans h)

/-- Every edge completes (R280). -/
theorem edge_completes (c : Cycle) (s : State) : ∃ t, edge c s = .next t := ⟨_, edge_eq c s⟩

/-- One edge leaves a unit as the instruction the cycle presents to it, its ports settled, leaves it. -/
theorem edge_commits_presented {c : Cycle} {s t : State} {op : Op} {i : Instr} (h : edge c s = .next t)
    (hi : presentedTo c op = i) :
    ∃ u, exec (settleInputs c.wires c.rmaxrd s i) s = .next u ∧ SameUnit op u t := by
  have hunit := edge_commits_unit (s := s) (cs := s.stim) (p := s.ports) h op
  rwa [hi] at hunit

/-! ### The slot memory at one edge -/

/-- Every slot after an edge of RMAX: reset first, then the write (R211, R63, R323). -/
theorem readSlots_nextRmax_eq_ite (reset we : Bool) (waddr : SlotAddr) (wdata : Fp16) {r : RmaxRegs}
    (hr : Memory.wf r.slot = true) (n : Nat) :
    readSlots (nextRmax reset we waddr wdata r).slot n =
      if reset then 0x0000#16 else if we = true ∧ n = waddr.toNat then wdata else readSlots r.slot n := by
  cases reset with
  | true => rfl
  | false => exact readSlots_nextRmax we waddr wdata hr n

/-! ### VEC at one edge -/

/-- VEC after an edge (R73, R231). -/
theorem edge_vec {c : Cycle} {s t : State} (h : edge c s = .next t) : t.vec = nextVec c s := by
  rw [edge_eq] at h
  cases h
  rfl

/-- An edge keeps VEC canonical (log 6). -/
theorem wf_nextVec (c : Cycle) {s : State} (h : Memory.wf s.vec = true) : Memory.wf (nextVec c s) = true := by
  unfold nextVec
  split
  · exact wf_nil
  · split
    · exact wf_writeSlots h ..
    · exact h

/-- Every word of VEC after an edge: reset first, then a wired and valid vector (R73, R231). -/
theorem readSlots_nextVec (c : Cycle) {s : State} (h : Memory.wf s.vec = true) (n : Nat) :
    readSlots (nextVec c s) n =
      if c.vecReset then 0x0000#16
      else if c.wires.maToVec = true ∧ s.pipema.s5.v = true ∧ n = s.pipema.s5.addr.toNat then s.pipema.s5.vec
      else readSlots s.vec n := by
  unfold nextVec
  split
  · rfl
  · split
    case isTrue hwrite =>
      obtain ⟨hwire, hvalid⟩ := Bool.and_eq_true_iff.mp hwrite
      simp [read_write h, hwire, hvalid]
    case isFalse hkept =>
      refine (if_neg ?_).symm
      rintro ⟨hwire, hvalid, -⟩
      exact hkept (Bool.and_eq_true_iff.mpr ⟨hwire, hvalid⟩)

/-! ### The statements -/

/-- Settles O38: RMAXRD executes on the registers of the last edge, as RMAXWR does (R62), and the slots RMAXWR leaves read
as `readSlots_nextRmax_eq_ite` says (R63, R323). -/
theorem slotReadInWriteCycleShowsOldValue : Obligations.SlotReadInWriteCycleShowsOldValue := by
  intro c reset we waddr raddr wdata s hwf
  generalize hd :
    (({ c with wires := .standalone }.give (.rmaxwr reset we waddr wdata)).give (.rmaxrd raddr)) = d
  have hw : d.wires = .standalone := by simp [← hd]
  have hrd : presentedTo d .rmaxrd = .rmaxrd raddr := by
    rw [← hd]; exact presentedTo_give _ (.rmaxrd raddr)
  have hwr : presentedTo d .rmaxwr = .rmaxwr reset we waddr wdata := by
    rw [← hd, presentedTo_give_other _ _ (by simp [Instr.op])]
    exact presentedTo_give _ (.rmaxwr reset we waddr wdata)
  obtain ⟨t, ht⟩ := edge_completes d s
  obtain ⟨u, hu, hshown⟩ := edge_commits_presented ht hrd
  obtain ⟨v, hv, -, hslot⟩ := edge_commits_presented ht hwr
  rw [hw, settleInputs_standalone] at hu hv
  cases hu
  cases hv
  exact ⟨t, ht, hshown, fun n => (hslot n).trans (readSlots_nextRmax_eq_ite reset we waddr wdata hwf n)⟩

/-- Settles O56: VEC's next contents (R73) are canonical and read as `readSlots_nextVec` says. -/
theorem vecFollowsPlainMemoryContract : Obligations.VecFollowsPlainMemoryContract := by
  intro c s hwf
  obtain ⟨t, ht⟩ := edge_completes c s
  have hvec := edge_vec ht
  exact ⟨t, ht, hvec ▸ wf_nextVec c hwf, hvec ▸ readSlots_nextVec c hwf⟩

/-- Settles O55: with every wire made PIPEDIV and PIPERP execute on what the memories and `ACC` held at the last edge (D16),
and VEC follows its contract without reset. -/
theorem referenceWiresFeedSecondPass : Obligations.ReferenceWiresFeedSecondPass := by
  intro c row div raddr xIn s hwf
  generalize hd : ((((({ c with wires := .reference, vecReset := false }.give (.rmaxrd raddr)).give row.op).give
    (.piperp false false xIn)).give div.op)) = d
  have hw : d.wires = .reference := by simp [← hd]
  have hreset : d.vecReset = false := by simp [← hd]
  have hdiv : presentedTo d .pipediv = div.op := by rw [← hd]; exact presentedTo_give _ div.op
  have hrp : presentedTo d .piperp = .piperp false false xIn := by
    rw [← hd, presentedTo_give_other _ _ (by simp [Instr.op, DivInput.op])]
    exact presentedTo_give _ (.piperp false false xIn)
  have hraddr : d.rmaxrd = raddr := by
    apply rmaxrd_of_presentedTo
    rw [← hd, presentedTo_give_other _ _ (by simp [Instr.op, DivInput.op]),
      presentedTo_give_other _ _ (by simp [Instr.op]), presentedTo_give_other _ _ (by simp [Instr.op, MaInput.op])]
    exact presentedTo_give _ (.rmaxrd raddr)
  obtain ⟨t, ht⟩ := edge_completes d s
  obtain ⟨u, hu, hdivRegs, -⟩ := edge_commits_presented ht hdiv
  obtain ⟨v, hv, hrpRegs, -⟩ := edge_commits_presented ht hrp
  rw [hw, hraddr] at hu hv
  cases hu
  cases hv
  refine ⟨t, ht, ?t1, ?pair, fun n => ?word⟩
  case t1 => rw [hdivRegs]; rfl
  case pair => rw [hrpRegs]; rfl
  case word =>
    rw [edge_vec ht, readSlots_nextVec d hwf, hreset, hw]
    simp [Wires.reference]

end Sys2Proof.Machine
end

section
/-!
PROOFS of the statements about the encoding (`30_encoding.md`): the decoder and the encoder undo each other, the places of
a record's ports, and the codes FADD, FSUB and FMUL can answer.
-/

namespace Sys2Proof.Machine

/-! ### Decoding what the encoder writes -/

/-- A well-formed record decodes to the split of its bits (R92). -/
theorem decode_of_wf {r : Record} (h : r.wf = true) : decode r = .ok (splitRecord r.op r.bits) := if_pos h

/-- A record wider than its operation's is refused by name (log 18). -/
theorem decode_of_not_wf {r : Record} (h : r.wf = false) : decode r = .error .recordTooWide := by
  simp [decode, h]

/-! ### Encoding what the decoder has read -/

@[simp] theorem splitRecord_op (op : Op) (n : Nat) : (splitRecord op n).op = op := by
  cases op <;> rfl

/-- A one-bit port as a slice of its record. -/
theorem ofBool_getLsbD {n : Nat} (x : BitVec n) (i : Nat) : BitVec.ofBool (x.getLsbD i) = x.extractLsb' i 1 := by
  apply BitVec.eq_of_getLsbD_eq
  intro j hj
  obtain rfl : j = 0 := by omega
  simp

/-- The ports of a record concatenated again are the record (R88): each port's slice begins where the next one ends, so two
neighbouring slices are one slice, and in the end the whole. The bits above the width are lost. -/
theorem encode_splitRecord (op : Op) (n : Nat) : encode (splitRecord op n) = ⟨op, n % 2 ^ op.width⟩ := by
  cases op <;>
    simp only [splitRecord, encode, Instr.op, Op.width, decodeFadd, decodeFsub, decodeFmul, decodeFmax, decodeLod,
      decodeLog2, decodeMax4, decodeExpsum, decodeRdiv, decodeRmaxwr, decodeRmaxrd, decodePipema, decodePiperp,
      decodePipediv, ofBool_getLsbD, BitVec.toNat_ofNat]
  all_goals
    repeat rw [BitVec.extractLsb'_append_extractLsb'_eq_extractLsb' (by decide)]
    rw [BitVec.extractLsb'_eq_self, BitVec.toNat_ofNat]

/-! ### What FADD, FSUB and FMUL answer is not subnormal -/

@[simp] theorem isSub_packFp (s : Bool) (e : BitVec 5) (m : BitVec 10) : isSub (packFp s e m) = (e == 0 && m != 0) := by
  simp [isSub]

@[simp] theorem isSub_signedZero (s : Bool) : isSub (signedZero s) = false := by
  simp [signedZero]

@[simp] theorem isSub_signedInf (s : Bool) : isSub (signedInf s) = false := by
  simp [signedInf]

@[simp] theorem isSub_genNaN (p : Params) (s : Bool) : isSub (genNaN p s) = false := by
  simp [genNaN]

/-- The classes of R16 exclude each other: a NaN is not subnormal. -/
theorem not_isSub_of_isNaN {x : Fp16} (h : isNaN x = true) : isSub x = false := by
  obtain ⟨he, -⟩ : expo x = 31 ∧ mant x ≠ 0 := by simpa [isNaN] using h
  simp [isSub, he]

/-- The classes of R16 exclude each other: an infinity is not subnormal. -/
theorem not_isSub_of_isInf {x : Fp16} (h : isInf x = true) : isSub x = false := by
  obtain ⟨he, -⟩ : expo x = 31 ∧ mant x = 0 := by simpa [isInf] using h
  simp [isSub, he]

/-- The classes of R16 exclude each other: a normal code is not subnormal. -/
theorem not_isSub_of_isNorm {x : Fp16} (h : isNorm x = true) : isSub x = false := by
  obtain ⟨he, -⟩ : expo x ≠ 0 ∧ expo x ≠ 31 := by simpa [isNorm] using h
  simp only [isSub, beq_eq_false_iff_ne.mpr he, Bool.false_and]

/-- An exponent from 1 to 30 does not fill its field with 0. -/
theorem ofInt_field_ne_zero {k : Int} (hlow : 1 ≤ k) (hhigh : k ≤ 30) : BitVec.ofInt 5 k ≠ 0 := by
  intro hzero
  have hfield : (k % 32).toNat = 0 := by simpa using congrArg BitVec.toNat hzero
  omega

/-- Rounding flushes what is below the least normal code to zero (R123). -/
@[simp] theorem isSub_roundPack (s : Bool) (e : Int) (S : BitVec 14) : isSub (roundPack s e S) = false := by
  obtain h | h | ⟨k, m, hlow, hhigh, h⟩ := roundPack_cases s e S
  · rw [h, isSub_signedInf]
  · rw [h, isSub_signedZero]
  · rw [h, isSub_packFp, beq_eq_false_iff_ne.mpr (ofInt_field_ne_zero hlow hhigh), Bool.false_and]

/-- A sum of magnitudes is a rounded one or the zero of a full cancellation (R125 line 9). -/
@[simp] theorem isSub_addMagnitudes (g l : Fp16) : isSub (addMagnitudes g l) = false := by
  unfold addMagnitudes
  dsimp only
  split
  case isTrue hsame => split <;> exact isSub_roundPack ..
  case isFalse hopposite =>
    split
    · decide
    · exact isSub_roundPack ..

/-- A product of magnitudes is a rounded one (R140 line 6). -/
@[simp] theorem isSub_mulMagnitudes (s : Bool) (a b : Fp16) : isSub (mulMagnitudes s a b) = false := by
  unfold mulMagnitudes
  dsimp only
  split <;> exact isSub_roundPack ..

/-- FADD never answers a subnormal code, line by line of R125 (R93). -/
theorem isSub_fpAdd (p : Params) (a b : Fp16) : isSub (fpAdd p a b) = false := by
  unfold fpAdd
  split_ifs with hnanA hnanB hopposite hinfA hinfB hzeros hzeroA hnormB hzeroB hnormA hmagnitude
  · exact not_isSub_of_isNaN hnanA
  · exact not_isSub_of_isNaN hnanB
  · exact isSub_genNaN ..
  · exact not_isSub_of_isInf hinfA
  · exact not_isSub_of_isInf hinfB
  · exact isSub_signedZero _
  · exact not_isSub_of_isNorm hnormB
  · exact isSub_signedZero _
  · exact not_isSub_of_isNorm hnormA
  · exact isSub_signedZero _
  · exact isSub_addMagnitudes a b
  · exact isSub_addMagnitudes b a

/-- FMUL never answers a subnormal code, line by line of R140 (R93). -/
theorem isSub_fpMul (p : Params) (a b : Fp16) : isSub (fpMul p a b) = false := by
  unfold fpMul
  dsimp only
  split_ifs with hnanA hnanB
  · exact not_isSub_of_isNaN hnanA
  · exact not_isSub_of_isNaN hnanB
  · exact isSub_genNaN ..
  · exact isSub_signedInf _
  · exact isSub_signedZero _
  · exact isSub_mulMagnitudes ..

/-! ### The statements -/

/-- Settles O1: the record of an instruction fits (`encode_fits`), and its split is the instruction (R88). -/
theorem decodeOfEncodeIsIdentity : Obligations.DecodeOfEncodeIsIdentity := by
  intro i
  obtain ⟨hop, hwf⟩ := encode_fits i
  rw [decode_of_wf hwf, hop, splitRecord_encode]

/-- Settles O2: the instruction is the record's split, and a record that fits loses no bit (R92); see
`encode_splitRecord`. -/
theorem fittingRecordsDecodeAndReencode : Obligations.FittingRecordsDecodeAndReencode := by
  refine fun r => ⟨fun hwf => ?_, decode_of_not_wf⟩
  have hfits : r.bits < 2 ^ r.op.width := of_decide_eq_true hwf
  refine ⟨splitRecord r.op r.bits, decode_of_wf hwf, splitRecord_op .., ?_⟩
  rw [encode_splitRecord, Nat.mod_eq_of_lt hfits]

/-- Settles O3: each concatenation puts what stands before it above the width of its last port (`append_toNat`), so a
port's weight is the product of the widths after it (R88). -/
theorem recordConcatenatesPorts : Obligations.RecordConcatenatesPorts := by
  refine ⟨rfl, ?_, ?_, ?_, ?_, ?_, ?_, ?_, ?_, ?_, ?_, ?_, ?_, ?_, ?_⟩ <;> intros <;>
    simp only [encode, append_toNat, BitVec.toNat_ofBool] <;> ring

/-- Settles O24: the answer is a special code, a normal operand, or rounded (R93, R123). -/
theorem kernelNeverReturnsSubnormal : Obligations.KernelNeverReturnsSubnormal := fun a b s =>
  ⟨⟨_, exec_fadd .., isSub_fpAdd s.cfg a b⟩, ⟨_, exec_fsub .., isSub_fpAdd s.cfg a (flipSign b)⟩,
    ⟨_, exec_fmul .., isSub_fpMul s.cfg a b⟩⟩

/-- Settles O4: the decoder evaluated on the six records of `95_test_vectors.md`. -/
theorem specWordsDecode : Obligations.SpecWordsDecode := ⟨rfl, rfl, rfl, rfl, rfl, rfl⟩

end Sys2Proof.Machine
end

section
/-!
PROOFS, arithmetic layer for FADD and FMUL: rounding to nearest even on natural numbers, quotients whose lowest bit is
sticky, and `roundPack` as exact rounding (R121, R123).
-/

namespace Sys2Proof.Machine

/-! ### Rounding a quotient to nearest even -/

/-- Rounding by comparison with the midpoint between two quotients, without the remainder. -/
theorem nearestEven_succ (n r : Nat) :
    nearestEven n (r + 1) =
      if (2 * (n / 2 ^ (r + 1)) + 1) * 2 ^ r < n ∨
          n = (2 * (n / 2 ^ (r + 1)) + 1) * 2 ^ r ∧ n / 2 ^ (r + 1) % 2 = 1 then
        n / 2 ^ (r + 1) + 1
      else n / 2 ^ (r + 1) := by
  have hmid : (2 * (n / 2 ^ (r + 1)) + 1) * 2 ^ r = 2 ^ (r + 1) * (n / 2 ^ (r + 1)) + 2 ^ r := by ring
  have hdiv : 2 ^ (r + 1) * (n / 2 ^ (r + 1)) + n % 2 ^ (r + 1) = n := Nat.div_add_mod ..
  have hpow : 2 ^ (r + 1) = 2 * 2 ^ r := by ring
  have habove : 2 ^ (r + 1) < 2 * (n % 2 ^ (r + 1)) ↔ (2 * (n / 2 ^ (r + 1)) + 1) * 2 ^ r < n := by omega
  have htie : 2 ^ (r + 1) = 2 * (n % 2 ^ (r + 1)) ↔ n = (2 * (n / 2 ^ (r + 1)) + 1) * 2 ^ r := by omega
  simp only [nearestEven, habove, htie]

/-- A multiple of the divisor is not rounded. -/
theorem nearestEven_mul_two_pow (m q : Nat) : nearestEven (m * 2 ^ q) q = m := by
  simp [nearestEven]

/-- Dividend and divisor scaled by the same power of two round alike. -/
theorem nearestEven_scale (n q j : Nat) : nearestEven (n * 2 ^ j) (q + j) = nearestEven n q := by
  have hj : 0 < 2 ^ j := by positivity
  have habove : 2 ^ q * 2 ^ j < 2 * (n % 2 ^ q * 2 ^ j) ↔ 2 ^ q < 2 * (n % 2 ^ q) := by
    rw [← Nat.mul_assoc, Nat.mul_lt_mul_right hj]
  have htie : 2 ^ q * 2 ^ j = 2 * (n % 2 ^ q * 2 ^ j) ↔ 2 ^ q = 2 * (n % 2 ^ q) := by
    rw [← Nat.mul_assoc, Nat.mul_left_inj hj.ne']
  simp only [nearestEven, Nat.pow_add, Nat.mul_div_mul_right _ _ hj, Nat.mul_mod_mul_right, habove, htie]

/-! ### Saturating, flushing and packing -/

/-- The end that `roundPack` and `roundExact` share: a significand rounded to 11 bits, its carry to `2048` taken into the
exponent, saturated to infinity, flushed to zero, or packed (R123). -/
def packRounded (s : Bool) (e : Int) (k : Nat) : Fp16 :=
  let e' : Int := e + (if k = 2048 then 1 else 0)
  if 31 ≤ e' then signedInf s
  else if e' ≤ 0 then signedZero s
  else packFp s (BitVec.ofInt 5 e') (BitVec.ofNat 10 k)

/-- Exact rounding rounds `n * 2^10` by the number of bits of `n`, however few those are. -/
theorem roundExact_eq (s : Bool) (n : Nat) (e0 : Int) :
    roundExact s n e0 = packRounded s (e0 + (n.log2 : Int) - 10) (nearestEven (n * 2 ^ 10) n.log2) := by
  have hround : (if 10 ≤ n.log2 then nearestEven n (n.log2 - 10) else n * 2 ^ (10 - n.log2)) =
      nearestEven (n * 2 ^ 10) n.log2 := by
    split
    case isTrue hlong =>
      rw [← nearestEven_scale n (n.log2 - 10) 10, Nat.sub_add_cancel hlong]
    case isFalse hshort =>
      have hsplit : n * 2 ^ 10 = n * 2 ^ (10 - n.log2) * 2 ^ n.log2 := by
        rw [Nat.mul_assoc, ← Nat.pow_add, Nat.sub_add_cancel (by omega)]
      rw [hsplit, nearestEven_mul_two_pow]
  unfold roundExact
  simp only [hround]
  rfl

/-- Scaling by a power of two moves a number's highest bit up. -/
theorem log2_mul_two_pow {n : Nat} (hn : n ≠ 0) (j : Nat) : (n * 2 ^ j).log2 = n.log2 + j := by
  have hj : 0 < 2 ^ j := by positivity
  have hnonzero : n * 2 ^ j ≠ 0 := Nat.mul_ne_zero hn hj.ne'
  rw [Nat.log2_eq_iff hnonzero, Nat.add_right_comm, Nat.pow_add, Nat.pow_add]
  exact ⟨Nat.mul_le_mul_right _ (Nat.log2_self_le hn), Nat.mul_lt_mul_of_pos_right Nat.lt_log2_self hj⟩

/-- Only the value counts: a factor of `2^j` on the number is a factor on the unit. -/
theorem roundExact_scale (s : Bool) {n : Nat} (hn : n ≠ 0) (j : Nat) (e0 : Int) :
    roundExact s (n * 2 ^ j) e0 = roundExact s n (e0 + j) := by
  have hexp : e0 + ((n.log2 + j : Nat) : Int) - 10 = e0 + j + (n.log2 : Int) - 10 := by omega
  rw [roundExact_eq, roundExact_eq, log2_mul_two_pow hn, Nat.mul_right_comm, nearestEven_scale, hexp]

/-! ### Quotients with a sticky lowest bit -/

/-- `S` stands for `N / 2^q`: it is that quotient exactly, or it is odd and the quotient lies strictly between its even
neighbours. This is what a shifted significand keeps when the lost bits are gathered in its lowest bit (R121, R125). -/
def Sticky (S N q : Nat) : Prop :=
  N = S * 2 ^ q ∨ S % 2 = 1 ∧ S * 2 ^ q < N + 2 ^ q ∧ N < S * 2 ^ q + 2 ^ q

/-- A shifted significand with the lost bits or-ed into its lowest bit stands for the quotient (R125). -/
theorem sticky_shift (N q : Nat) : Sticky (N / 2 ^ q ||| (if N % 2 ^ q = 0 then 0 else 1)) N q := by
  have hdiv : 2 ^ q * (N / 2 ^ q) + N % 2 ^ q = N := Nat.div_add_mod ..
  have hmod : N % 2 ^ q < 2 ^ q := Nat.mod_lt _ (by positivity)
  split
  case isTrue hexact =>
    left
    rw [Nat.or_zero, Nat.mul_comm]
    omega
  case isFalse hlost =>
    right
    have hodd : (N / 2 ^ q ||| 1) % 2 = 1 := Nat.or_mod_two_eq_one.mpr (.inr rfl)
    have hhalf : (N / 2 ^ q ||| 1) / 2 = N / 2 ^ q / 2 := by rw [Nat.or_div_two]; exact Nat.or_zero _
    obtain hnext | hsame : (N / 2 ^ q ||| 1) = N / 2 ^ q + 1 ∨ (N / 2 ^ q ||| 1) = N / 2 ^ q := by omega
    · rw [hnext, Nat.add_mul, Nat.mul_comm (N / 2 ^ q)]
      omega
    · rw [hsame, Nat.mul_comm (N / 2 ^ q)]
      omega

/-- Two shifts one after the other stand for one. -/
theorem Sticky.trans {T S N j q : Nat} (hS : Sticky S N q) (hT : Sticky T S j) : Sticky T N (j + q) := by
  have hq : 1 ≤ 2 ^ q := Nat.one_le_two_pow
  unfold Sticky
  rw [Nat.pow_add, ← Nat.mul_assoc]
  obtain rfl | ⟨hoddT, hlowT, hhighT⟩ := hT
  · obtain rfl | ⟨hoddS, hlowS, hhighS⟩ := hS
    · exact .inl rfl
    · obtain ⟨hoddT, hoddJ⟩ := Nat.odd_mul.mp (Nat.odd_iff.mpr hoddS)
      obtain rfl : j = 0 := by
        by_contra hj
        exact Nat.not_even_iff_odd.mpr hoddJ (Nat.even_pow.mpr ⟨even_two, hj⟩)
      simp only [Nat.pow_zero, Nat.mul_one, Nat.one_mul] at hlowS hhighS ⊢
      exact .inr ⟨Nat.odd_iff.mp hoddT, hlowS, hhighS⟩
  · right
    have hlow : (T * 2 ^ j + 1) * 2 ^ q ≤ (S + 2 ^ j) * 2 ^ q := Nat.mul_le_mul_right _ hlowT
    have hhigh : (S + 1) * 2 ^ q ≤ (T * 2 ^ j + 2 ^ j) * 2 ^ q := Nat.mul_le_mul_right _ hhighT
    simp only [Nat.add_mul, Nat.one_mul] at hlow hhigh
    refine ⟨hoddT, ?_⟩
    obtain rfl | ⟨-, hlowS, hhighS⟩ := hS <;> omega

/-- A number scaled by a power of two has the quotient of the larger shift. -/
theorem Sticky.scale {S N q : Nat} (h : Sticky S N q) (j : Nat) : Sticky S (N * 2 ^ j) (q + j) :=
  Sticky.trans (.inl rfl) h

/-- An even summand keeps the sticky bit in its place. -/
theorem Sticky.add_even {Y N q X : Nat} (h : Sticky Y N q) (hX : X % 2 = 0) : Sticky (X + Y) (X * 2 ^ q + N) q := by
  unfold Sticky at h ⊢
  rw [Nat.add_mul]
  omega

/-- Subtracting from an even number keeps the sticky bit in its place, and does not go below zero. -/
theorem Sticky.even_sub {Y N q X : Nat} (h : Sticky Y N q) (hX : X % 2 = 0) (hle : Y ≤ X) :
    N ≤ X * 2 ^ q ∧ Sticky (X - Y) (X * 2 ^ q - N) q := by
  have hscaled : Y * 2 ^ q ≤ X * 2 ^ q := Nat.mul_le_mul_right _ hle
  unfold Sticky at h ⊢
  rw [Nat.sub_mul]
  obtain rfl | ⟨hodd, hlow, hhigh⟩ := h
  · exact ⟨hscaled, .inl rfl⟩
  · have hnext : (Y + 1) * 2 ^ q ≤ X * 2 ^ q := Nat.mul_le_mul_right _ (by omega)
    rw [Nat.add_mul] at hnext
    omega

/-- Only zero stands for zero. -/
theorem Sticky.eq_zero_iff {S N q : Nat} (h : Sticky S N q) : S = 0 ↔ N = 0 := by
  have hq : 0 < 2 ^ q := by positivity
  obtain rfl | ⟨hodd, hlow, -⟩ := h
  · simp
  · have hpos : 1 * 2 ^ q ≤ S * 2 ^ q := Nat.mul_le_mul_right _ (by omega)
    omega

/-- A multiple of the divisor is stood for exactly. -/
theorem Sticky.eq_of_dvd {S N q : Nat} (h : Sticky S N q) (hN : 2 ^ q ∣ N) : N = S * 2 ^ q := by
  obtain hexact | ⟨-, hlow, hhigh⟩ := h
  · exact hexact
  · obtain ⟨m, rfl⟩ := hN
    have hS : S < m + 1 := Nat.lt_of_mul_lt_mul_left (a := 2 ^ q) (by linarith)
    have hm : m < S + 1 := Nat.lt_of_mul_lt_mul_left (a := 2 ^ q) (by linarith)
    rw [Nat.mul_comm, Nat.le_antisymm (Nat.le_of_lt_succ hS) (Nat.le_of_lt_succ hm)]

/-- An even number is at most `S` just when it is at most the quotient. -/
theorem Sticky.even_le_iff {S N q E : Nat} (h : Sticky S N q) (hE : E % 2 = 0) : E ≤ S ↔ E * 2 ^ q ≤ N := by
  obtain rfl | ⟨hodd, hlow, hhigh⟩ := h
  · exact (Nat.mul_le_mul_right_iff (by positivity)).symm
  · constructor
    · intro hle
      have hnext : (E + 1) * 2 ^ q ≤ S * 2 ^ q := Nat.mul_le_mul_right _ (by omega)
      rw [Nat.add_mul] at hnext
      omega
    · intro hle
      by_contra hlt
      have hnext : (S + 1) * 2 ^ q ≤ E * 2 ^ q := Nat.mul_le_mul_right _ (by omega)
      rw [Nat.add_mul] at hnext
      omega

/-- An even number is at least `S` just when it is at least the quotient. -/
theorem Sticky.le_even_iff {S N q E : Nat} (h : Sticky S N q) (hE : E % 2 = 0) : S ≤ E ↔ N ≤ E * 2 ^ q := by
  obtain rfl | ⟨hodd, hlow, hhigh⟩ := h
  · exact (Nat.mul_le_mul_right_iff (by positivity)).symm
  · constructor
    · intro hle
      have hnext : (S + 1) * 2 ^ q ≤ E * 2 ^ q := Nat.mul_le_mul_right _ (by omega)
      rw [Nat.add_mul] at hnext
      omega
    · intro hle
      by_contra hlt
      have hnext : (E + 1) * 2 ^ q ≤ S * 2 ^ q := Nat.mul_le_mul_right _ (by omega)
      rw [Nat.add_mul] at hnext
      omega

/-! ### Rounding sees the value through a sticky bit -/

/-- The midpoints and the kept quotients of a rounding are even. -/
theorem mul_two_pow_succ_even (k r : Nat) : k * 2 ^ (r + 1) % 2 = 0 := by
  rw [Nat.pow_succ, ← Nat.mul_assoc, Nat.mul_mod_left]

/-- Two places below the last one kept, a sticky bit decides the rounding as the lost bits do: the midpoint and the
kept quotients are even. -/
theorem Sticky.nearestEven_congr {S N q : Nat} (h : Sticky S N q) (r : Nat) :
    nearestEven N (r + 2 + q) = nearestEven S (r + 2) := by
  have hsum : r + 2 + q = r + 1 + q + 1 := by omega
  have hquotient : N / 2 ^ (r + 2 + q) = S / 2 ^ (r + 2) := by
    refine eq_of_forall_le_iff fun k => ?_
    rw [Nat.le_div_iff_mul_le (by positivity), Nat.le_div_iff_mul_le (by positivity), Nat.pow_add, ← Nat.mul_assoc,
      h.even_le_iff (mul_two_pow_succ_even k (r + 1))]
  have hmid : ∀ k, (2 * k + 1) * 2 ^ (r + 1) % 2 = 0 := fun k => mul_two_pow_succ_even _ r
  have habove : ∀ k, (2 * k + 1) * 2 ^ (r + 1 + q) < N ↔ (2 * k + 1) * 2 ^ (r + 1) < S := fun k => by
    rw [Nat.pow_add, ← Nat.mul_assoc, ← not_le, ← not_le, h.le_even_iff (hmid k)]
  have htie : ∀ k, N = (2 * k + 1) * 2 ^ (r + 1 + q) ↔ S = (2 * k + 1) * 2 ^ (r + 1) := fun k => by
    rw [Nat.pow_add, ← Nat.mul_assoc, le_antisymm_iff, le_antisymm_iff, h.le_even_iff (hmid k),
      h.even_le_iff (hmid k)]
  rw [hsum] at hquotient ⊢
  rw [nearestEven_succ, nearestEven_succ, hquotient]
  simp only [habove, htie]

/-- The quotient has as many bits as the number that stands for it. -/
theorem Sticky.log2_eq {S N q : Nat} (h : Sticky S N q) (hS : 2 ≤ S) : N.log2 = S.log2 + q := by
  have hS0 : S ≠ 0 := by omega
  have hN0 : N ≠ 0 := mt h.eq_zero_iff.mpr hS0
  obtain ⟨l, hl⟩ : ∃ l, S.log2 = l + 1 := Nat.exists_eq_add_of_le' ((Nat.le_log2 hS0).mpr hS)
  have hlow : 2 ^ (l + 1) ≤ S := hl ▸ Nat.log2_self_le hS0
  have hhigh : S < 2 ^ (l + 1 + 1) := hl ▸ Nat.lt_log2_self
  rw [hl, Nat.log2_eq_iff hN0, Nat.add_right_comm _ q, Nat.pow_add _ _ q, Nat.pow_add _ _ q,
    ← h.even_le_iff (by omega), ← not_le, ← h.even_le_iff (by omega), not_le]
  exact ⟨hlow, hhigh⟩

/-- The exact value rounds as the number that stands for it does, if no bit is lost or 13 bits are left. -/
theorem Sticky.roundExact_congr {S N q : Nat} (h : Sticky S N q) (hS : S ≠ 0) (hlong : N = S * 2 ^ q ∨ 2 ^ 12 ≤ S)
    (s : Bool) (e0 : Int) : roundExact s N e0 = roundExact s S (e0 + q) := by
  obtain rfl | hlong := hlong
  · exact roundExact_scale s hS q e0
  · have hlog : N.log2 = S.log2 + q := h.log2_eq (by omega)
    obtain ⟨r, hr⟩ : ∃ r, S.log2 = r + 12 := Nat.exists_eq_add_of_le' ((Nat.le_log2 hS).mpr hlong)
    have hexp : e0 + ((S.log2 + q : Nat) : Int) - 10 = e0 + q + (S.log2 : Int) - 10 := by omega
    have hround : nearestEven (N * 2 ^ 10) (S.log2 + q) = nearestEven (S * 2 ^ 10) S.log2 := by
      rw [show S.log2 + q = r + 2 + q + 10 by omega, show S.log2 = r + 2 + 10 by omega, nearestEven_scale,
        nearestEven_scale, h.nearestEven_congr]
    rw [roundExact_eq, roundExact_eq, hlog, hexp, hround]

/-! ### `RoundPack` is exact rounding -/

/-- The guard, round and sticky decision of R123 is that of rounding the upper 11 of 14 bits to nearest even. -/
theorem nearestEven_of_roundUp (S : BitVec 14) :
    nearestEven S.toNat 3 =
      S.toNat / 8 +
        (roundUp (S.getLsbD 2) (S.getLsbD 1) (S.getLsbD 0) ((S.extractLsb' 3 11).getLsbD 0)).toNat := by
  have hkeep : (S.extractLsb' 3 11).getLsbD 0 = S.getLsbD 3 := by simp
  have hup : roundUp (S.getLsbD 2) (S.getLsbD 1) (S.getLsbD 0) ((S.extractLsb' 3 11).getLsbD 0) = true ↔
      (2 * (S.toNat / 2 ^ (2 + 1)) + 1) * 2 ^ 2 < S.toNat ∨
        S.toNat = (2 * (S.toNat / 2 ^ (2 + 1)) + 1) * 2 ^ 2 ∧ S.toNat / 2 ^ (2 + 1) % 2 = 1 := by
    simp only [hkeep, roundUp, bit_eq, Bool.and_eq_true, Bool.or_eq_true, decide_eq_true_eq]
    omega
  rw [nearestEven_succ S.toNat 2]
  split
  case isTrue habove =>
    rw [hup.mpr habove]
    rfl
  case isFalse hbelow =>
    rw [Bool.eq_false_iff.mpr (mt hup.mp hbelow)]
    rfl

/-- `RoundPack` rounds the upper 11 bits to nearest even and packs them (R123). -/
theorem roundPack_eq (s : Bool) (e : Int) (S : BitVec 14) :
    roundPack s e S = packRounded s e (nearestEven S.toNat 3) := by
  have hS := S.isLt
  set up := roundUp (S.getLsbD 2) (S.getLsbD 1) (S.getLsbD 0) ((S.extractLsb' 3 11).getLsbD 0) with hup
  have hround : nearestEven S.toNat 3 = S.toNat / 8 + up.toNat := nearestEven_of_roundUp S
  have hbit : up.toNat ≤ 1 := up.toNat_le
  set k12 : BitVec 12 := (S.extractLsb' 3 11).setWidth 12 + (if up then 1 else 0) with hk12
  have hk : k12.toNat = nearestEven S.toNat 3 := by
    have hinc : (if up then 1 else 0 : BitVec 12).toNat = up.toNat := by cases up <;> rfl
    rw [hk12, BitVec.toNat_add, BitVec.toNat_setWidth, slice_toNat, hinc, hround]
    omega
  have hcarry : k12 = 0x800#12 ↔ nearestEven S.toNat 3 = 2048 := by
    rw [← BitVec.toNat_inj, hk]
    rfl
  simp only [roundPack, packRounded, ← hup, ← hk12, hcarry]
  split
  case isTrue htop => simp [htop]
  case isFalse hfits =>
    have hmant : k12.extractLsb' 0 10 = BitVec.ofNat 10 (nearestEven S.toNat 3) := by
      apply BitVec.eq_of_toNat_eq
      rw [slice_toNat, hk, BitVec.toNat_ofNat]
      omega
    simp [hmant]

/-- On a significand with its top bit set `RoundPack` is exact rounding, in units of its lowest bit (R123). -/
theorem roundPack_eq_roundExact (s : Bool) (e : Int) {S : BitVec 14} (hS : 2 ^ 13 ≤ S.toNat) :
    roundPack s e S = roundExact s S.toNat (e - 3) := by
  have hlog : S.toNat.log2 = 13 := (Nat.log2_eq_iff (by omega)).mpr ⟨hS, S.isLt⟩
  have hexp : e - 3 + ((13 : Nat) : Int) - 10 = e := by omega
  rw [roundPack_eq, roundExact_eq, hlog, hexp, nearestEven_scale S.toNat 3 10]

/-- Normalizing before rounding does not change the value rounded (R125). -/
theorem roundPack_normalize (s : Bool) (n : Nat) :
    ∀ (e : Int) (S : BitVec 14), 2 ^ 13 ≤ S.toNat * 2 ^ n →
      roundPack s (normalize n e S).1 (normalize n e S).2 = roundExact s S.toNat (e - 3) := by
  induction n with
  | zero => exact fun e S hS => roundPack_eq_roundExact s e (S := S) (by omega)
  | succ n ih =>
    intro e S hS
    have hlt := S.isLt
    simp only [normalize, bit_eq, decide_eq_true_eq]
    split
    case isTrue htop => exact roundPack_eq_roundExact s e (S := S) (by omega)
    case isFalse hclear =>
      have hdouble : (S <<< 1).toNat = S.toNat * 2 ^ 1 := by
        rw [BitVec.toNat_shiftLeft, Nat.shiftLeft_eq]
        omega
      have hnonzero : S.toNat ≠ 0 := by
        intro hzero
        simp [hzero] at hS
      have hexp : e - 1 - 3 + ((1 : Nat) : Int) = e - 3 := by omega
      have henough : 2 ^ 13 ≤ (S <<< 1).toNat * 2 ^ n := by
        rw [hdouble, Nat.mul_assoc, ← Nat.pow_add, Nat.add_comm 1 n]
        exact hS
      rw [ih (e - 1) (S <<< 1) henough, hdouble, roundExact_scale s hnonzero, hexp]

end Sys2Proof.Machine
end

section
/-!
PROOFS, operand layer for FADD and FMUL: the classes of R110 and R111 exclude each other, and a nonzero finite operand is
its significand times a power of two (R82, R116, R117).
-/

namespace Sys2Proof.Machine

/-! ### The classes of an operand -/

section
variable {p : Params} {x y : Fp16}

theorem isNaN_iff : isNaN x = true ↔ expo x = 31 ∧ mant x ≠ 0 := by simp [isNaN]

theorem isInf_iff : isInf x = true ↔ expo x = 31 ∧ mant x = 0 := by simp [isInf]

theorem isZero_iff : isZero x = true ↔ expo x = 0 ∧ mant x = 0 := by simp [isZero]

theorem isSub_iff : isSub x = true ↔ expo x = 0 ∧ mant x ≠ 0 := by simp [isSub]

theorem isNorm_iff : isNorm x = true ↔ expo x ≠ 0 ∧ expo x ≠ 31 := by simp [isNorm]

theorem isZeroClass_iff : isZeroClass p x = true ↔ isZero x = true ∨ isSub x = true ∧ p.subnormalIn = .zero := by
  simp [isZeroClass]

theorem nonzeroFinite_iff :
    nonzeroFinite p x = true ↔ isNaN x = false ∧ isInf x = false ∧ isZeroClass p x = false := by
  simp [nonzeroFinite, and_assoc]

/-- Every operand is a NaN, an infinity, in the zero class, or nonzero and finite (R110, R111). -/
theorem operand_classes (p : Params) (x : Fp16) :
    isNaN x = true ∨ isInf x = true ∨ isZeroClass p x = true ∨ nonzeroFinite p x = true := by
  rw [nonzeroFinite_iff]
  cases isNaN x <;> cases isInf x <;> cases isZeroClass p x <;> decide

theorem not_isNaN_of_isInf (h : isInf x = true) : isNaN x = false := by
  rw [← Bool.not_eq_true, isNaN_iff]
  exact fun hnan => hnan.2 (isInf_iff.mp h).2

/-- A code of the zero class has exponent field 0 (R111). -/
theorem expo_of_isZeroClass (h : isZeroClass p x = true) : expo x = 0 := by
  obtain hzero | ⟨hsub, -⟩ := isZeroClass_iff.mp h
  · exact (isZero_iff.mp hzero).1
  · exact (isSub_iff.mp hsub).1

theorem not_isNaN_of_isZeroClass (h : isZeroClass p x = true) : isNaN x = false := by
  simp [isNaN, expo_of_isZeroClass h]

theorem not_isInf_of_isZeroClass (h : isZeroClass p x = true) : isInf x = false := by
  simp [isInf, expo_of_isZeroClass h]

theorem not_isZeroClass_of_isInf (p : Params) (h : isInf x = true) : isZeroClass p x = false := by
  rw [← Bool.not_eq_true]
  exact fun hzero => by simp [not_isInf_of_isZeroClass hzero] at h

/-- A nonzero finite operand is subnormal or normal. -/
theorem isSub_or_isNorm (h : nonzeroFinite p x = true) : isSub x = true ∨ isNorm x = true := by
  simp only [nonzeroFinite_iff, ← Bool.not_eq_true, isNaN_iff, isInf_iff, isZeroClass_iff, isZero_iff] at h
  rw [isSub_iff, isNorm_iff]
  tauto

theorem nonzeroFinite_of_isNorm (p : Params) (h : isNorm x = true) : nonzeroFinite p x = true := by
  rw [isNorm_iff] at h
  simp only [nonzeroFinite_iff, ← Bool.not_eq_true, isNaN_iff, isInf_iff, isZeroClass_iff, isZero_iff, isSub_iff]
  tauto

/-- Two infinities of one sign are one code. -/
theorem eq_of_isInf (hx : isInf x = true) (hy : isInf y = true) (hs : sign x = sign y) : x = y := by
  obtain ⟨hexpX, hmantX⟩ := isInf_iff.mp hx
  obtain ⟨hexpY, hmantY⟩ := isInf_iff.mp hy
  exact fp_ext hs (hexpX.trans hexpY.symm) (hmantX.trans hmantY.symm)

end

/-! ### The sign flipped -/

@[simp] theorem sign_flipSign (x : Fp16) : sign (flipSign x) = !sign x := by
  simp [sign, flipSign]

@[simp] theorem expo_flipSign (x : Fp16) : expo (flipSign x) = expo x := by
  have hmask : BitVec.extractLsb' 10 5 0x8000#16 = 0#5 := by decide
  rw [expo, flipSign, BitVec.extractLsb'_xor, hmask, BitVec.xor_zero, expo]

@[simp] theorem mant_flipSign (x : Fp16) : mant (flipSign x) = mant x := by
  have hmask : BitVec.extractLsb' 0 10 0x8000#16 = 0#10 := by decide
  rw [mant, flipSign, BitVec.extractLsb'_xor, hmask, BitVec.xor_zero, mant]

@[simp] theorem isNaN_flipSign (x : Fp16) : isNaN (flipSign x) = isNaN x := by simp [isNaN]

@[simp] theorem isInf_flipSign (x : Fp16) : isInf (flipSign x) = isInf x := by simp [isInf]

@[simp] theorem isZeroClass_flipSign (p : Params) (x : Fp16) : isZeroClass p (flipSign x) = isZeroClass p x := by
  simp [isZeroClass, isZero, isSub]

@[simp] theorem nonzeroFinite_flipSign (p : Params) (x : Fp16) : nonzeroFinite p (flipSign x) = nonzeroFinite p x := by
  simp [nonzeroFinite]

/-- The opposite code has the opposite value. -/
theorem valueUnits_flipSign (x : Fp16) : valueUnits (flipSign x) = -valueUnits x := by
  cases hs : sign x <;> simp [valueUnits, magnitudeUnits, hs]

/-! ### Significand and effective exponent -/

/-- The significand of a normal operand: the mantissa under its hidden bit (R116). -/
theorem sig_of_isNorm {x : Fp16} (h : isNorm x = true) : (sig x).toNat = 1024 + (mant x).toNat := by
  rw [sig, not_isSub_of_isNorm h, if_neg Bool.false_ne_true, append_toNat]
  rfl

theorem eff_of_isNorm {x : Fp16} (h : isNorm x = true) : eff x = ((expo x).toNat : Int) := by
  simp [eff, not_isSub_of_isNorm h]

/-- The highest bit of a subnormal operand's mantissa is where the scan finds it (R117). -/
theorem mant_between_of_isSub {x : Fp16} (h : isSub x = true) :
    2 ^ leadingOne (mant x).toNat 10 ≤ (mant x).toNat ∧
      (mant x).toNat < 2 ^ (leadingOne (mant x).toNat 10 + 1) := by
  obtain ⟨-, hmant⟩ := isSub_iff.mp h
  have hlt : (mant x).toNat < 2 ^ 10 := (mant x).isLt
  obtain ⟨i, hi⟩ := Nat.exists_testBit_of_ne_zero (BitVec.toNat_ne.mp hmant)
  have hi10 : i < 10 := by
    by_contra hge
    rw [Nat.testBit_lt_two_pow (hlt.trans_le (Nat.pow_le_pow_right (by decide) (by omega)))] at hi
    exact absurd hi (by decide)
  refine ⟨Nat.ge_two_pow_of_testBit (leadingOne_set hi10 hi), Nat.lt_pow_two_of_testBit _ fun j hj => ?_⟩
  by_cases hj10 : j < 10
  · exact leadingOne_above hj hj10
  · exact Nat.testBit_lt_two_pow (hlt.trans_le (Nat.pow_le_pow_right (by decide) (by omega)))

/-- The significand of a subnormal operand: the mantissa shifted up until its highest bit is bit 10 (R117). -/
theorem sig_of_isSub {x : Fp16} (h : isSub x = true) :
    (sig x).toNat = (mant x).toNat * 2 ^ (10 - leadingOne (mant x).toNat 10) := by
  obtain ⟨-, hhigh⟩ := mant_between_of_isSub h
  have hi : leadingOne (mant x).toNat 10 < 10 := leadingOne_lt _ (by decide)
  have hmant := (mant x).isLt
  have hfits : (mant x).toNat * 2 ^ (10 - leadingOne (mant x).toNat 10) < 2 ^ 11 := by
    calc (mant x).toNat * 2 ^ (10 - leadingOne (mant x).toNat 10)
        < 2 ^ (leadingOne (mant x).toNat 10 + 1) * 2 ^ (10 - leadingOne (mant x).toNat 10) :=
          Nat.mul_lt_mul_of_pos_right hhigh (by positivity)
      _ = 2 ^ 11 := by rw [← Nat.pow_add]; congr 1; omega
  have hshift : mantZeros x + 1 = 10 - leadingOne (mant x).toNat 10 := by
    unfold mantZeros
    omega
  rw [sig, if_pos h, hshift, BitVec.toNat_shiftLeft, Nat.shiftLeft_eq, BitVec.toNat_setWidth_of_le (by decide),
    Nat.mod_eq_of_lt hfits]

theorem eff_of_isSub {x : Fp16} (h : isSub x = true) : eff x = (leadingOne (mant x).toNat 10 : Int) - 9 := by
  have hi : leadingOne (mant x).toNat 10 < 10 := leadingOne_lt _ (by decide)
  simp only [eff, if_pos h, mantZeros]
  omega

section
variable {p : Params} {x : Fp16}

/-- Bit 10 of a significand is set (R116, R117). -/
theorem sig_ge (h : nonzeroFinite p x = true) : 2 ^ 10 ≤ (sig x).toNat := by
  obtain hsub | hnorm := isSub_or_isNorm h
  · obtain ⟨hlow, -⟩ := mant_between_of_isSub hsub
    have hi : leadingOne (mant x).toNat 10 < 10 := leadingOne_lt _ (by decide)
    rw [sig_of_isSub hsub]
    calc 2 ^ 10 = 2 ^ leadingOne (mant x).toNat 10 * 2 ^ (10 - leadingOne (mant x).toNat 10) := by
          rw [← Nat.pow_add]; congr 1; omega
      _ ≤ (mant x).toNat * 2 ^ (10 - leadingOne (mant x).toNat 10) := Nat.mul_le_mul_right _ hlow
  · rw [sig_of_isNorm hnorm]
    omega

/-- The least effective exponent is that of the least subnormal operand (R117). -/
theorem eff_ge (h : nonzeroFinite p x = true) : -9 ≤ eff x := by
  obtain hsub | hnorm := isSub_or_isNorm h
  · rw [eff_of_isSub hsub]
    omega
  · rw [eff_of_isNorm hnorm]
    omega

/-- The magnitude of a nonzero finite operand is `sig * 2^(eff - 25)` (R116, R117), here in units of `2^-34`, which are
small enough for every effective exponent. -/
theorem magnitudeUnits_eq (h : nonzeroFinite p x = true) :
    magnitudeUnits x * 2 ^ 10 = (sig x).toNat * 2 ^ (eff x + 9).toNat := by
  obtain hsub | hnorm := isSub_or_isNorm h
  · obtain ⟨hexp, -⟩ := isSub_iff.mp hsub
    have hi : leadingOne (mant x).toNat 10 < 10 := leadingOne_lt _ (by decide)
    have heff : (eff x + 9).toNat = leadingOne (mant x).toNat 10 := by
      rw [eff_of_isSub hsub]
      omega
    rw [magnitudeUnits, if_pos hexp, sig_of_isSub hsub, heff, Nat.mul_assoc, ← Nat.pow_add, Nat.sub_add_cancel hi.le]
  · obtain ⟨hexp, -⟩ := isNorm_iff.mp hnorm
    have hpos : (expo x).toNat ≠ 0 := BitVec.toNat_ne.mp hexp
    have heff : (eff x + 9).toNat = (expo x).toNat - 1 + 10 := by
      rw [eff_of_isNorm hnorm]
      omega
    rw [magnitudeUnits, if_neg hexp, sig_of_isNorm hnorm, heff, Nat.pow_add, Nat.mul_assoc]

theorem magnitudeUnits_pos (h : nonzeroFinite p x = true) : 0 < magnitudeUnits x := by
  have hsig := sig_ge h
  have hscaled : 0 < magnitudeUnits x * 2 ^ 10 := by
    rw [magnitudeUnits_eq h]
    exact Nat.mul_pos (by omega) (by positivity)
  omega

end

end Sys2Proof.Machine
end

section
/-!
PROOFS, FADD (R125): each line as one equation, the arithmetic path as exact rounding (R126 (a)), and the operands
exchanged (R126 (b)).
-/

namespace Sys2Proof.Machine

/-! ### The lines of R125 -/

section
variable {p : Params} {a b : Fp16}

theorem fpAdd_of_isNaN_left (ha : isNaN a = true) : fpAdd p a b = a := by
  simp [fpAdd, ha]

theorem fpAdd_of_isNaN_right (ha : isNaN a = false) (hb : isNaN b = true) : fpAdd p a b = b := by
  simp [fpAdd, ha, hb]

theorem fpAdd_of_opposite_isInf (ha : isInf a = true) (hb : isInf b = true) (hs : sign a ≠ sign b) :
    fpAdd p a b = genNaN p (sign a) := by
  simp [fpAdd, not_isNaN_of_isInf ha, not_isNaN_of_isInf hb, ha, hb, hs]

theorem fpAdd_of_isInf_left (ha : isInf a = true) (hb : isNaN b = false) (hs : isInf b = true → sign a = sign b) :
    fpAdd p a b = a := by
  have hsame : ¬ ((isInf a && isInf b && (sign a != sign b)) = true) := by simpa [ha] using hs
  simp only [fpAdd, not_isNaN_of_isInf ha, hb, if_neg hsame, if_pos ha, Bool.false_eq_true, if_false]

/-- Two infinities that reach line 4 are one code, so line 5 has no exception for the first operand. -/
theorem fpAdd_of_isInf_right (ha : isNaN a = false) (hb : isInf b = true) (hs : isInf a = true → sign a = sign b) :
    fpAdd p a b = b := by
  cases hinf : isInf a with
  | true =>
    obtain rfl := eq_of_isInf hinf hb (hs hinf)
    exact fpAdd_of_isInf_left hb ha fun _ => rfl
  | false => simp [fpAdd, ha, not_isNaN_of_isInf hb, hinf, hb]

theorem fpAdd_of_isZeroClass (ha : isZeroClass p a = true) (hb : isZeroClass p b = true) :
    fpAdd p a b = signedZero (sign a && sign b) := by
  simp [fpAdd, not_isNaN_of_isZeroClass ha, not_isNaN_of_isZeroClass hb, not_isInf_of_isZeroClass ha,
    not_isInf_of_isZeroClass hb, ha, hb]

theorem fpAdd_of_isZeroClass_left (ha : isZeroClass p a = true) (hb : nonzeroFinite p b = true) :
    fpAdd p a b = if isNorm b then b else signedZero (sign b) := by
  obtain ⟨hnanB, hinfB, hzeroB⟩ := nonzeroFinite_iff.mp hb
  simp [fpAdd, not_isNaN_of_isZeroClass ha, not_isInf_of_isZeroClass ha, ha, hnanB, hinfB, hzeroB]

theorem fpAdd_of_isZeroClass_right (ha : nonzeroFinite p a = true) (hb : isZeroClass p b = true) :
    fpAdd p a b = if isNorm a then a else signedZero (sign a) := by
  obtain ⟨hnanA, hinfA, hzeroA⟩ := nonzeroFinite_iff.mp ha
  simp [fpAdd, not_isNaN_of_isZeroClass hb, not_isInf_of_isZeroClass hb, hb, hnanA, hinfA, hzeroA]

/-- Line 9: the arithmetic path, the greater magnitude first. -/
theorem fpAdd_of_nonzeroFinite (ha : nonzeroFinite p a = true) (hb : nonzeroFinite p b = true) :
    fpAdd p a b = if geMagnitude a b then addMagnitudes a b else addMagnitudes b a := by
  obtain ⟨hnanA, hinfA, hzeroA⟩ := nonzeroFinite_iff.mp ha
  obtain ⟨hnanB, hinfB, hzeroB⟩ := nonzeroFinite_iff.mp hb
  simp [fpAdd, hnanA, hinfA, hzeroA, hnanB, hinfB, hzeroB]

end

/-! ### The sum of two magnitudes -/

/-- The extended significand is the significand over three zero bits (R121). -/
theorem ext_toNat (x : Fp16) : (ext x).toNat = (sig x).toNat * 8 :=
  append_toNat (sig x) 0#3

/-- The magnitude in units of `2^-37`: the extended significand times a power of two. -/
theorem magnitudeUnits_eq_ext {p : Params} {x : Fp16} (h : nonzeroFinite p x = true) :
    magnitudeUnits x * 2 ^ 13 = (ext x).toNat * 2 ^ (eff x + 9).toNat := by
  have hsig := magnitudeUnits_eq h
  rw [ext_toNat, Nat.mul_right_comm, ← hsig]
  ring

/-- The aligned significand stands for the shifted one (R125). -/
theorem sticky_alignSticky {y : BitVec 14} (hy : y ≠ 0) (d : Nat) : Sticky (alignSticky y d).toNat y.toNat d := by
  by_cases hfar : 14 ≤ d
  · have hlt : y.toNat < 2 ^ d := y.isLt.trans_le (Nat.pow_le_pow_right (by decide) hfar)
    have hpos : y.toNat ≠ 0 := BitVec.toNat_ne.mp hy
    have hone : (1 : BitVec 14).toNat = 1 := rfl
    rw [alignSticky_far hfar, hone]
    exact .inr ⟨rfl, by omega, by omega⟩
  · have hnear : (alignSticky y d).toNat = y.toNat / 2 ^ d ||| (if y.toNat % 2 ^ d = 0 then 0 else 1) := by
      rw [alignSticky, if_neg hfar, BitVec.toNat_or, BitVec.toNat_ushiftRight, Nat.shiftRight_eq_div_pow]
      by_cases hlost : y.toNat % 2 ^ d = 0 <;> simp [lostBits, hlost]
    rw [hnear]
    exact sticky_shift y.toNat d

/-- The carry of a sum is shifted out with its lowest bit kept sticky (R125). -/
theorem sticky_halve (S : BitVec 15) : Sticky (((S >>> 1) ||| (S &&& 1)).setWidth 14).toNat S.toNat 1 := by
  have hlt := S.isLt
  have hhalf : S.toNat / 2 < 2 ^ 14 := by omega
  have hbit : (if S.toNat % 2 ^ 1 = 0 then 0 else 1) < 2 ^ 14 := by split <;> decide
  have hvalue : (((S >>> 1) ||| (S &&& 1)).setWidth 14).toNat =
      S.toNat / 2 ^ 1 ||| (if S.toNat % 2 ^ 1 = 0 then 0 else 1) := by
    have hlow : S.toNat &&& 1 = if S.toNat % 2 ^ 1 = 0 then 0 else 1 := by
      rw [Nat.and_one_is_mod]
      split <;> omega
    rw [BitVec.toNat_setWidth, BitVec.toNat_or, BitVec.toNat_and, BitVec.toNat_ushiftRight, Nat.shiftRight_eq_div_pow]
    change (_ ||| S.toNat &&& 1) % _ = _
    rw [hlow, Nat.mod_eq_of_lt (Nat.or_lt_two_pow hhalf hbit), Nat.pow_one]
  rw [hvalue]
  exact sticky_shift S.toNat 1

/-- The sum of two significands, its carry shifted out, rounds as the 15-bit sum (R125). -/
theorem roundPack_carry (s : Bool) (e : Int) {S : BitVec 15} (hS : 2 ^ 13 ≤ S.toNat) :
    (if S.getLsbD 14 then roundPack s (e + 1) (((S >>> 1) ||| (S &&& 1)).setWidth 14)
      else roundPack s e (S.setWidth 14)) = roundExact s S.toNat (e - 3) := by
  have hlt := S.isLt
  simp only [bit_eq, decide_eq_true_eq]
  split
  case isTrue hcarry =>
    have hhalf := sticky_halve S
    have htop : 2 ^ 13 ≤ (((S >>> 1) ||| (S &&& 1)).setWidth 14).toNat :=
      (hhalf.even_le_iff (by decide)).mpr (by omega)
    rw [roundPack_eq_roundExact _ _ htop, hhalf.roundExact_congr (by omega) (.inr (by omega))]
    congr 1
    push_cast
    omega
  case isFalse hfits =>
    have hnarrow : (S.setWidth 14).toNat = S.toNat := by
      rw [BitVec.toNat_setWidth]
      omega
    rw [roundPack_eq_roundExact _ _ (by omega), hnarrow]

section
variable {p : Params} {g l : Fp16} (hg : nonzeroFinite p g = true) (hl : nonzeroFinite p l = true)
  (heff : eff l ≤ eff g)
include hg hl heff

/-- The aligned lesser significand stands for the lesser magnitude in the greater one's unit (R125). -/
theorem sticky_aligned :
    Sticky (alignSticky (ext l) (eff g - eff l).toNat).toNat (magnitudeUnits l * 2 ^ 13) (eff g + 9).toNat := by
  have hgeG := eff_ge hg
  have hgeL := eff_ge hl
  have hsig := sig_ge hl
  have hnonzero : ext l ≠ 0 := by
    rw [BitVec.toNat_ne, ext_toNat]
    change _ ≠ 0
    omega
  have hsum : (eff g + 9).toNat = (eff g - eff l).toNat + (eff l + 9).toNat := by omega
  rw [magnitudeUnits_eq_ext hl, hsum]
  exact (sticky_alignSticky hnonzero _).scale _

/-- Two magnitudes of one sign add to their exact sum, rounded (R125, R126 (a)). -/
theorem addMagnitudes_of_same_sign (hs : sign g = sign l) :
    addMagnitudes g l = roundExact (sign g) (magnitudeUnits g + magnitudeUnits l) 1 := by
  set Y := alignSticky (ext l) (eff g - eff l).toNat with hY
  have hgeG := eff_ge hg
  have hsigG := sig_ge hg
  have hext := ext_toNat g
  have hYlt := Y.isLt
  have hXlt := (ext g).isLt
  have hstands :
      Sticky ((ext g).toNat + Y.toNat) ((magnitudeUnits g + magnitudeUnits l) * 2 ^ 13) (eff g + 9).toNat := by
    rw [Nat.add_mul, magnitudeUnits_eq_ext hg]
    exact (sticky_aligned hg hl heff).add_even (by omega)
  have hpos := magnitudeUnits_pos hg
  have hround : roundExact (sign g) (magnitudeUnits g + magnitudeUnits l) 1 =
      roundExact (sign g) ((ext g).toNat + Y.toNat) (eff g - 3) := by
    have hscale := roundExact_scale (sign g) (n := magnitudeUnits g + magnitudeUnits l) (by omega) 13 (-12)
    rw [hstands.roundExact_congr (by omega) (.inr (by omega))] at hscale
    convert hscale.symm using 2 <;> omega
  have hsum : ((ext g).setWidth 15 + Y.setWidth 15).toNat = (ext g).toNat + Y.toNat := by
    rw [BitVec.toNat_add, BitVec.toNat_setWidth, BitVec.toNat_setWidth]
    omega
  rw [hround, ← hsum, ← roundPack_carry _ _ (by omega), addMagnitudes, if_pos hs]

/-- Shifted by `d` places of 14, the aligned significand has at most `14 - d` bits and a carry out of them (R125). -/
theorem aligned_le_two_pow {k : Nat} (hk : 14 ≤ k + 1 + (eff g - eff l).toNat) :
    (alignSticky (ext l) (eff g - eff l).toNat).toNat ≤ 2 ^ (k + 1) := by
  have hgeL := eff_ge hl
  refine ((sticky_aligned hg hl heff).le_even_iff (by omega)).mpr ?_
  rw [magnitudeUnits_eq_ext hl, ← Nat.pow_add]
  calc (ext l).toNat * 2 ^ (eff l + 9).toNat
      ≤ 2 ^ 14 * 2 ^ (eff l + 9).toNat := Nat.mul_le_mul_right _ (ext l).isLt.le
    _ = 2 ^ (14 + (eff l + 9).toNat) := (Nat.pow_add ..).symm
    _ ≤ 2 ^ (k + 1 + (eff g + 9).toNat) := Nat.pow_le_pow_right (by decide) (by omega)

/-- Up to three places nothing is lost, from four places on the aligned significand is small (R121, R125). -/
theorem aligned_exact_or_small :
    magnitudeUnits l * 2 ^ 13 = (alignSticky (ext l) (eff g - eff l).toNat).toNat * 2 ^ (eff g + 9).toNat ∨
      (alignSticky (ext l) (eff g - eff l).toNat).toNat ≤ 2 ^ 10 := by
  have hgeL := eff_ge hl
  by_cases hnear : eff g - eff l ≤ 3
  · left
    refine (sticky_aligned hg hl heff).eq_of_dvd ?_
    rw [magnitudeUnits_eq_ext hl, ext_toNat, Nat.mul_assoc, show 8 = 2 ^ 3 from rfl, ← Nat.pow_add]
    exact Dvd.dvd.mul_left (Nat.pow_dvd_pow 2 (by omega)) _
  · exact .inr (aligned_le_two_pow hg hl heff (k := 9) (by omega))

/-- The aligned lesser significand is at most the greater one: not shifted by the order of significands, shifted by at
least one place because bit 13 of the greater one is set (R125). -/
theorem aligned_le (hsig : eff g = eff l → sig l ≤ sig g) :
    (alignSticky (ext l) (eff g - eff l).toNat).toNat ≤ (ext g).toNat := by
  rw [ext_toNat g]
  by_cases hsame : eff g = eff l
  · have hle : (sig l).toNat ≤ (sig g).toNat := hsig hsame
    rw [hsame, Int.sub_self, Int.toNat_zero, alignSticky_zero, ext_toNat]
    omega
  · have hsigG := sig_ge hg
    have hhalf := aligned_le_two_pow hg hl heff (k := 12) (by omega)
    omega

/-- The difference of the significands stands for that of the magnitudes, exactly or with 13 bits left (R125). -/
theorem sticky_difference (hsig : eff g = eff l → sig l ≤ sig g) :
    magnitudeUnits l ≤ magnitudeUnits g ∧
      Sticky (ext g - alignSticky (ext l) (eff g - eff l).toNat).toNat
        ((magnitudeUnits g - magnitudeUnits l) * 2 ^ 13) (eff g + 9).toNat ∧
      ((magnitudeUnits g - magnitudeUnits l) * 2 ^ 13 =
          (ext g - alignSticky (ext l) (eff g - eff l).toNat).toNat * 2 ^ (eff g + 9).toNat ∨
        2 ^ 12 ≤ (ext g - alignSticky (ext l) (eff g - eff l).toNat).toNat) := by
  have hle := aligned_le hg hl heff hsig
  have hsigG := sig_ge hg
  have hext := ext_toNat g
  have hmagG := magnitudeUnits_eq_ext hg
  obtain ⟨hscaled, hstands⟩ := (sticky_aligned hg hl heff).even_sub (X := (ext g).toNat) (by omega) hle
  rw [← hmagG] at hscaled hstands
  rw [BitVec.toNat_sub_of_le hle, Nat.sub_mul]
  refine ⟨by omega, hstands, (aligned_exact_or_small hg hl heff).imp (fun hexact => ?_) (fun hsmall => by omega)⟩
  rw [Nat.sub_mul, hmagG, hexact]

/-- Two magnitudes of opposite signs, the greater first, add to their exact difference, rounded, or cancel to +0
(R125, R126 (a)). -/
theorem addMagnitudes_of_opposite_sign (hs : sign g ≠ sign l) (hsig : eff g = eff l → sig l ≤ sig g) :
    addMagnitudes g l =
      if magnitudeUnits g - magnitudeUnits l = 0 then 0
      else roundExact (sign g) (magnitudeUnits g - magnitudeUnits l) 1 := by
  obtain ⟨-, hstands, hlong⟩ := sticky_difference hg hl heff hsig
  have hgeG := eff_ge hg
  rw [addMagnitudes, if_neg hs]
  dsimp only
  generalize ext g - alignSticky (ext l) (eff g - eff l).toNat = S at hstands hlong
  by_cases hzero : magnitudeUnits g - magnitudeUnits l = 0
  · have hnothing : S.toNat = 0 := hstands.eq_zero_iff.mpr (by rw [hzero, Nat.zero_mul])
    rw [if_pos hzero, if_pos (BitVec.eq_of_toNat_eq hnothing)]
  · have hrest : S.toNat ≠ 0 := mt hstands.eq_zero_iff.mp (by omega)
    have hkept : S ≠ 0 := fun hcancel => hrest (by rw [hcancel]; rfl)
    have henough : 2 ^ 13 ≤ S.toNat * 2 ^ 13 := Nat.le_mul_of_pos_left _ (Nat.pos_of_ne_zero hrest)
    rw [if_neg hzero, if_neg hkept, roundPack_normalize _ _ _ _ henough]
    have hscale := roundExact_scale (sign g) hzero 13 (-12)
    rw [hstands.roundExact_congr hrest hlong] at hscale
    convert hscale using 2 <;> omega

end

/-! ### FADD as exact rounding -/

/-- A value in units of `2^-24` as FADD answers it: an exact zero is +0, any other value is rounded (R126 (a)). -/
def roundValue (v : Int) : Fp16 := if v = 0 then 0x0000#16 else roundExact (decide (v < 0)) v.natAbs 1

theorem roundValue_natCast {n : Nat} (hn : 0 < n) : roundValue n = roundExact false n 1 := by
  have hsign : ¬ ((n : Int) < 0) := by omega
  simp [roundValue, hn.ne', hsign]

theorem roundValue_neg_natCast {n : Nat} (hn : 0 < n) : roundValue (-(n : Int)) = roundExact true n 1 := by
  simp [roundValue, hn.ne', hn]

/-- The arithmetic path of FADD, the greater magnitude first, rounds the exact sum (R125 line 9). -/
theorem addMagnitudes_eq_roundValue {p : Params} {g l : Fp16} (hg : nonzeroFinite p g = true)
    (hl : nonzeroFinite p l = true) (heff : eff l ≤ eff g) (hsig : eff g = eff l → sig l ≤ sig g) :
    addMagnitudes g l = roundValue (valueUnits g + valueUnits l) := by
  have hpos := magnitudeUnits_pos hg
  by_cases hs : sign g = sign l
  · rw [addMagnitudes_of_same_sign hg hl heff hs]
    unfold valueUnits
    rw [← hs]
    cases sign g with
    | false =>
      rw [← roundValue_natCast (by omega)]
      simp
    | true =>
      rw [← roundValue_neg_natCast (by omega)]
      congr 1
      simp only [if_true]
      omega
  · obtain ⟨hle, -⟩ := sticky_difference hg hl heff hsig
    have hround := addMagnitudes_of_opposite_sign hg hl heff hs hsig
    obtain ⟨d, hd⟩ := Nat.exists_eq_add_of_le hle
    have hdiff : magnitudeUnits g - magnitudeUnits l = d := by omega
    have hother : sign l = !sign g := Bool.eq_not.mpr (Ne.symm hs)
    rw [hround, hdiff]
    unfold valueUnits
    rw [hother, hd]
    split
    case isTrue hcancel =>
      subst hcancel
      cases sign g <;> simp [roundValue]
    case isFalse hrest =>
      cases sign g with
      | false =>
        rw [← roundValue_natCast (by omega)]
        congr 1
        simp
      | true =>
        rw [← roundValue_neg_natCast (by omega)]
        congr 1
        simp only [if_true, Bool.not_true, Bool.false_eq_true, if_false]
        omega

/-- FADD of nonzero finite operands rounds their exact sum, whichever has the greater magnitude (R126 (a)). -/
theorem fpAdd_eq_roundValue {p : Params} {a b : Fp16} (ha : nonzeroFinite p a = true) (hb : nonzeroFinite p b = true) :
    fpAdd p a b = roundValue (valueUnits a + valueUnits b) := by
  rw [fpAdd_of_nonzeroFinite ha hb]
  split
  case isTrue hge =>
    simp only [geMagnitude, Bool.or_eq_true, Bool.and_eq_true, decide_eq_true_eq] at hge
    exact addMagnitudes_eq_roundValue ha hb (by omega) (fun heq => (hge.resolve_left (by omega)).2)
  case isFalse hlt =>
    simp only [geMagnitude, Bool.or_eq_true, Bool.and_eq_true, decide_eq_true_eq, not_or, not_and] at hlt
    obtain ⟨heff, hsig⟩ := hlt
    rw [Int.add_comm]
    exact addMagnitudes_eq_roundValue hb ha (by omega) (fun heq => BitVec.le_of_lt (BitVec.not_le.mp (hsig heq.symm)))

/-! ### Operands exchanged -/

section
variable {p : Params} {a b : Fp16}

/-- A zero-class operand may stand on either side of any operand but a NaN (R125 lines 4 to 8). -/
theorem fpAdd_comm_of_isZeroClass (ha : isNaN a = false) (hb : isZeroClass p b = true) : fpAdd p a b = fpAdd p b a := by
  have hnanB := not_isNaN_of_isZeroClass hb
  have hinfB := not_isInf_of_isZeroClass hb
  obtain hnanA | hinfA | hzeroA | hfiniteA := operand_classes p a
  · simp [ha] at hnanA
  · rw [fpAdd_of_isInf_left hinfA hnanB (by simp [hinfB]), fpAdd_of_isInf_right hnanB hinfA (by simp [hinfB])]
  · rw [fpAdd_of_isZeroClass hzeroA hb, fpAdd_of_isZeroClass hb hzeroA, Bool.and_comm]
  · rw [fpAdd_of_isZeroClass_right hfiniteA hb, fpAdd_of_isZeroClass_left hb hfiniteA]

/-- FADD commutes but for two NaNs and opposite infinities, class by class (R126 (b)). -/
theorem fpAdd_comm (hnan : ¬ (isNaN a = true ∧ isNaN b = true))
    (hinf : ¬ (isInf a = true ∧ isInf b = true ∧ sign a ≠ sign b)) : fpAdd p a b = fpAdd p b a := by
  cases hnanA : isNaN a with
  | true =>
    have hnanB : isNaN b = false := by simpa [hnanA] using hnan
    rw [fpAdd_of_isNaN_left hnanA, fpAdd_of_isNaN_right hnanB hnanA]
  | false =>
    obtain hnanB | hinfB | hzeroB | hfiniteB := operand_classes p b
    · rw [fpAdd_of_isNaN_left hnanB, fpAdd_of_isNaN_right hnanA hnanB]
    · have hs : isInf a = true → sign a = sign b := fun hinfA => by simpa [hinfA, hinfB] using hinf
      rw [fpAdd_of_isInf_left hinfB hnanA fun hinfA => (hs hinfA).symm, fpAdd_of_isInf_right hnanA hinfB hs]
    · exact fpAdd_comm_of_isZeroClass hnanA hzeroB
    · obtain hnanA' | hinfA | hzeroA | hfiniteA := operand_classes p a
      · simp [hnanA] at hnanA'
      · obtain ⟨hnanB, hinfB, -⟩ := nonzeroFinite_iff.mp hfiniteB
        rw [fpAdd_of_isInf_left hinfA hnanB (by simp [hinfB]), fpAdd_of_isInf_right hnanB hinfA (by simp [hinfB])]
      · exact (fpAdd_comm_of_isZeroClass (nonzeroFinite_iff.mp hfiniteB).1 hzeroA).symm
      · rw [fpAdd_eq_roundValue hfiniteA hfiniteB, fpAdd_eq_roundValue hfiniteB hfiniteA, Int.add_comm]

end

end Sys2Proof.Machine
end

section
/-!
PROOFS, FMUL (R140): each line as one equation, the arithmetic path as exact rounding (R141 (a)), and the operands
exchanged (R141 (b)).
-/

namespace Sys2Proof.Machine

/-! ### The lines of R140 -/

section
variable {p : Params} {a b : Fp16}

theorem fpMul_of_isNaN_left (ha : isNaN a = true) : fpMul p a b = a := by
  simp [fpMul, ha]

theorem fpMul_of_isNaN_right (ha : isNaN a = false) (hb : isNaN b = true) : fpMul p a b = b := by
  simp [fpMul, ha, hb]

theorem fpMul_of_isInf_isZeroClass (ha : isInf a = true) (hb : isZeroClass p b = true) :
    fpMul p a b = genNaN p (sign a != sign b) := by
  simp [fpMul, not_isNaN_of_isInf ha, not_isNaN_of_isZeroClass hb, ha, hb]

theorem fpMul_of_isZeroClass_isInf (ha : isZeroClass p a = true) (hb : isInf b = true) :
    fpMul p a b = genNaN p (sign a != sign b) := by
  simp [fpMul, not_isNaN_of_isZeroClass ha, not_isNaN_of_isInf hb, ha, hb]

theorem fpMul_of_isInf_left (ha : isInf a = true) (hb : isInf b = true ∨ nonzeroFinite p b = true) :
    fpMul p a b = signedInf (sign a != sign b) := by
  obtain ⟨hnanB, hzeroB⟩ : isNaN b = false ∧ isZeroClass p b = false := by
    obtain hinf | hfinite := hb
    · exact ⟨not_isNaN_of_isInf hinf, not_isZeroClass_of_isInf p hinf⟩
    · obtain ⟨hnan, -, hzero⟩ := nonzeroFinite_iff.mp hfinite
      exact ⟨hnan, hzero⟩
  simp [fpMul, not_isNaN_of_isInf ha, not_isZeroClass_of_isInf p ha, ha, hnanB, hzeroB]

theorem fpMul_of_isInf_right (ha : nonzeroFinite p a = true) (hb : isInf b = true) :
    fpMul p a b = signedInf (sign a != sign b) := by
  obtain ⟨hnanA, hinfA, hzeroA⟩ := nonzeroFinite_iff.mp ha
  simp [fpMul, not_isNaN_of_isInf hb, hb, hnanA, hinfA, hzeroA]

theorem fpMul_of_isZeroClass_left (ha : isZeroClass p a = true)
    (hb : isZeroClass p b = true ∨ nonzeroFinite p b = true) : fpMul p a b = signedZero (sign a != sign b) := by
  obtain ⟨hnanB, hinfB⟩ : isNaN b = false ∧ isInf b = false := by
    obtain hzero | hfinite := hb
    · exact ⟨not_isNaN_of_isZeroClass hzero, not_isInf_of_isZeroClass hzero⟩
    · obtain ⟨hnan, hinf, -⟩ := nonzeroFinite_iff.mp hfinite
      exact ⟨hnan, hinf⟩
  simp [fpMul, not_isNaN_of_isZeroClass ha, not_isInf_of_isZeroClass ha, ha, hnanB, hinfB]

theorem fpMul_of_isZeroClass_right (ha : nonzeroFinite p a = true) (hb : isZeroClass p b = true) :
    fpMul p a b = signedZero (sign a != sign b) := by
  obtain ⟨hnanA, hinfA, hzeroA⟩ := nonzeroFinite_iff.mp ha
  simp [fpMul, not_isNaN_of_isZeroClass hb, not_isInf_of_isZeroClass hb, hb, hnanA, hinfA, hzeroA]

/-- Line 6: the arithmetic path. -/
theorem fpMul_of_nonzeroFinite (ha : nonzeroFinite p a = true) (hb : nonzeroFinite p b = true) :
    fpMul p a b = mulMagnitudes (sign a != sign b) a b := by
  obtain ⟨hnanA, hinfA, hzeroA⟩ := nonzeroFinite_iff.mp ha
  obtain ⟨hnanB, hinfB, hzeroB⟩ := nonzeroFinite_iff.mp hb
  simp [fpMul, hnanA, hinfA, hzeroA, hnanB, hinfB, hzeroB]

end

/-! ### FMUL as exact rounding -/

/-- A quotient with one more bit that says whether anything is left stands for the number (R140). -/
theorem sticky_appendLost (N j : Nat) : Sticky (N / 2 ^ (j + 1) * 2 + (if N % 2 ^ (j + 1) = 0 then 0 else 1)) N j := by
  have hdiv : 2 ^ (j + 1) * (N / 2 ^ (j + 1)) + N % 2 ^ (j + 1) = N := Nat.div_add_mod ..
  have hmod : N % 2 ^ (j + 1) < 2 ^ (j + 1) := Nat.mod_lt _ (by positivity)
  have hdouble : N / 2 ^ (j + 1) * 2 * 2 ^ j = 2 ^ (j + 1) * (N / 2 ^ (j + 1)) := by ring
  have hpow : 2 ^ (j + 1) = 2 * 2 ^ j := by ring
  unfold Sticky
  split <;> rw [Nat.add_mul, hdouble] <;> omega

/-- The significand FMUL hands to rounding, whose fields are slices of the product, stands for the product (R140). -/
theorem sticky_slices (P : BitVec 22) {j : Nat} (hP : P.toNat < 2 ^ (j + 14)) :
    Sticky (P.extractLsb' (j + 3) 11 ++ P.extractLsb' (j + 2) 1 ++ P.extractLsb' (j + 1) 1 ++
      BitVec.ofBool (P.extractLsb' 0 (j + 1) != 0)).toNat P.toNat j := by
  have hlost : (BitVec.ofBool (P.extractLsb' 0 (j + 1) != 0)).toNat = if P.toNat % 2 ^ (j + 1) = 0 then 0 else 1 := by
    have hlow : (P.extractLsb' 0 (j + 1)).toNat = P.toNat % 2 ^ (j + 1) := by simp
    have hzero : P.extractLsb' 0 (j + 1) = 0 ↔ P.toNat % 2 ^ (j + 1) = 0 := by
      rw [← hlow, ← BitVec.toNat_inj]
      rfl
    by_cases h : P.extractLsb' 0 (j + 1) = 0
    · rw [if_pos (hzero.mp h), h]
      simp
    · rw [if_neg (mt hzero.mpr h), bne_iff_ne.mpr h]
      rfl
  have hquotient : P.toNat / 2 ^ (j + 1) < 2 ^ 13 := by
    rw [Nat.div_lt_iff_lt_mul (by positivity), ← Nat.pow_add]
    exact hP.trans_le (Nat.pow_le_pow_right (by decide) (by omega))
  have htop : P.toNat / 2 ^ (j + 3) = P.toNat / 2 ^ (j + 1) / 4 := by
    rw [Nat.div_div_eq_div_mul, Nat.pow_add 2 (j + 1) 2]
  have hguard : P.toNat / 2 ^ (j + 2) = P.toNat / 2 ^ (j + 1) / 2 := by
    rw [Nat.div_div_eq_div_mul, Nat.pow_add 2 (j + 1) 1]
  have hvalue : (P.extractLsb' (j + 3) 11 ++ P.extractLsb' (j + 2) 1 ++ P.extractLsb' (j + 1) 1 ++
      BitVec.ofBool (P.extractLsb' 0 (j + 1) != 0)).toNat =
      P.toNat / 2 ^ (j + 1) * 2 + (if P.toNat % 2 ^ (j + 1) = 0 then 0 else 1) := by
    rw [append_toNat, append_toNat, append_toNat, slice_toNat, slice_toNat, slice_toNat, hlost, htop, hguard]
    omega
  rw [hvalue]
  exact sticky_appendLost P.toNat j

/-- A significand of FMUL with its top bit set rounds as the product does (R140). -/
theorem roundPack_slices (s : Bool) (e : Int) (P : BitVec 22) {j : Nat} (hlow : 2 ^ (j + 13) ≤ P.toNat)
    (hhigh : P.toNat < 2 ^ (j + 14)) :
    roundPack s e (P.extractLsb' (j + 3) 11 ++ P.extractLsb' (j + 2) 1 ++ P.extractLsb' (j + 1) 1 ++
      BitVec.ofBool (P.extractLsb' 0 (j + 1) != 0)) = roundExact s P.toNat (e - 3 - j) := by
  have hstands := sticky_slices P hhigh
  have htop := (hstands.even_le_iff (E := 2 ^ 13) (by decide)).mpr (by rwa [← Nat.pow_add, Nat.add_comm])
  rw [roundPack_eq_roundExact s e htop, hstands.roundExact_congr (by omega) (.inr (by omega)), Int.sub_add_cancel]

/-- The arithmetic path of FMUL rounds the exact product (R140 line 6, R141 (a)). -/
theorem mulMagnitudes_eq_roundExact {p : Params} {a b : Fp16} (ha : nonzeroFinite p a = true)
    (hb : nonzeroFinite p b = true) (s : Bool) :
    mulMagnitudes s a b = roundExact s (magnitudeUnits a * magnitudeUnits b) (-23) := by
  have hgeA := eff_ge ha
  have hgeB := eff_ge hb
  have hlow : 2 ^ 10 * 2 ^ 10 ≤ (sig a).toNat * (sig b).toNat := Nat.mul_le_mul (sig_ge ha) (sig_ge hb)
  have hhigh : (sig a).toNat * (sig b).toNat < 2 ^ 11 * 2 ^ 11 := Nat.mul_lt_mul'' (sig a).isLt (sig b).isLt
  have hproduct : ((sig a).setWidth 22 * (sig b).setWidth 22).toNat = (sig a).toNat * (sig b).toNat := by
    rw [BitVec.toNat_mul, BitVec.toNat_setWidth_of_le (by decide), BitVec.toNat_setWidth_of_le (by decide)]
    exact Nat.mod_eq_of_lt hhigh
  have hunits : magnitudeUnits a * magnitudeUnits b * 2 ^ 20 =
      (sig a).toNat * (sig b).toNat * 2 ^ ((eff a + 9).toNat + (eff b + 9).toNat) := by
    calc magnitudeUnits a * magnitudeUnits b * 2 ^ 20
        = magnitudeUnits a * 2 ^ 10 * (magnitudeUnits b * 2 ^ 10) := by ring
      _ = (sig a).toNat * (sig b).toNat * 2 ^ ((eff a + 9).toNat + (eff b + 9).toNat) := by
        rw [magnitudeUnits_eq ha, magnitudeUnits_eq hb]
        ring
  have hround : roundExact s (magnitudeUnits a * magnitudeUnits b) (-23) =
      roundExact s ((sig a).toNat * (sig b).toNat) (eff a + eff b - 25) := by
    have hnonzero := Nat.mul_pos (magnitudeUnits_pos ha) (magnitudeUnits_pos hb)
    have hscale := roundExact_scale s hnonzero.ne' 20 (-43)
    rw [hunits, roundExact_scale s (by omega)] at hscale
    convert hscale.symm using 2 <;> omega
  rw [hround, mulMagnitudes]
  rw [← hproduct] at hlow hhigh ⊢
  generalize (sig a).setWidth 22 * (sig b).setWidth 22 = P at hlow hhigh
  simp only [bit_eq, decide_eq_true_eq]
  split
  case isTrue htop =>
    refine (roundPack_slices s _ P (j := 8) (by omega) (by omega)).trans ?_
    congr 1
    push_cast
    omega
  case isFalse hclear =>
    refine (roundPack_slices s _ P (j := 7) (by omega) (by omega)).trans ?_
    congr 1
    push_cast
    omega

/-! ### Operands exchanged -/

/-- The arithmetic path of FMUL reads its operands alike. -/
theorem mulMagnitudes_comm (s : Bool) (a b : Fp16) : mulMagnitudes s a b = mulMagnitudes s b a := by
  rw [mulMagnitudes, mulMagnitudes, BitVec.mul_comm, Int.add_comm (eff a)]

/-- FMUL commutes but for two NaNs: after the NaN lines R140 reads its operands alike (R141 (b)). -/
theorem fpMul_comm {p : Params} {a b : Fp16} (hnan : ¬ (isNaN a = true ∧ isNaN b = true)) :
    fpMul p a b = fpMul p b a := by
  cases hnanA : isNaN a with
  | true =>
    have hnanB : isNaN b = false := by simpa [hnanA] using hnan
    rw [fpMul_of_isNaN_left hnanA, fpMul_of_isNaN_right hnanB hnanA]
  | false =>
    cases hnanB : isNaN b with
    | true => rw [fpMul_of_isNaN_left hnanB, fpMul_of_isNaN_right hnanA hnanB]
    | false =>
      have hsign : (sign a != sign b) = (sign b != sign a) := bne_comm
      have hgen : (isInf a && isZeroClass p b || isZeroClass p a && isInf b) =
          (isInf b && isZeroClass p a || isZeroClass p b && isInf a) := by
        rw [Bool.or_comm, Bool.and_comm, Bool.and_comm (isInf a)]
      simp only [fpMul, hnanA, hnanB, Bool.false_eq_true, if_false, hsign, hgen, Bool.or_comm (isInf a),
        Bool.or_comm (isZeroClass p a), mulMagnitudes_comm _ a b]

end Sys2Proof.Machine
end

section
/-!
PROOFS of the statements about the FP16 kernel (`40_fp16_kernel.md`), and FMAX as the maximum of a total order of codes
(R150, R151).
-/

namespace Sys2Proof.Machine

/-! ### FMAX and the order of codes -/

/-- The order key by sign and field (R150). -/
theorem orderKey_eq (x : Fp16) :
    orderKey x = if sign x then -((field15 x).toNat : Int) - 1 else ((field15 x).toNat : Int) := by
  rw [field15, slice_toNat, Nat.pow_zero, Nat.div_one]
  rfl

/-- FMAX answers the operand with the greater key (R150). -/
theorem orderKey_fpMax (a b : Fp16) : orderKey (fpMax a b) = max (orderKey a) (orderKey b) := by
  have hkeyA := orderKey_eq a
  have hkeyB := orderKey_eq b
  cases hsignA : sign a with
  | false =>
    rw [hsignA, if_neg Bool.false_ne_true] at hkeyA
    cases hsignB : sign b with
    | false =>
      have hmax : fpMax a b = if field15 b ≤ field15 a then a else b := by simp [fpMax, hsignA, hsignB]
      rw [hsignB, if_neg Bool.false_ne_true] at hkeyB
      simp only [hmax, BitVec.le_def]
      split <;> omega
    | true =>
      have hmax : fpMax a b = a := by simp [fpMax, hsignA, hsignB]
      rw [hsignB, if_pos rfl] at hkeyB
      rw [hmax]
      omega
  | true =>
    rw [hsignA, if_pos rfl] at hkeyA
    cases hsignB : sign b with
    | false =>
      have hmax : fpMax a b = b := by simp [fpMax, hsignA, hsignB]
      rw [hsignB, if_neg Bool.false_ne_true] at hkeyB
      rw [hmax]
      omega
    | true =>
      have hmax : fpMax a b = if field15 a ≤ field15 b then a else b := by simp [fpMax, hsignA, hsignB]
      rw [hsignB, if_pos rfl] at hkeyB
      simp only [hmax, BitVec.le_def]
      split <;> omega

/-- The order is total on codes: no two codes share a key. -/
theorem orderKey_injective : Function.Injective orderKey := by
  intro x y h
  have hx := x.isLt
  have hy := y.isLt
  apply BitVec.eq_of_toNat_eq
  simp only [orderKey, bit_eq, decide_eq_true_eq] at h
  split at h <;> split at h <;> omega

/-! ### The statements -/

/-- Settles O16: the lines of R125, one lemma each; the lines before a clause's are excluded by its classes. -/
theorem faddSpecialOperands : Obligations.FaddSpecialOperands := by
  refine fun a b s => ⟨_, exec_fadd .., operationsChangeOnlyTheirUnit _ s _ (exec_fadd ..), ?_⟩
  simp only [Bool.not_eq_true]
  exact ⟨fpAdd_of_isNaN_left, fpAdd_of_isNaN_right, fpAdd_of_opposite_isInf, fpAdd_of_isInf_left,
    fun hnan hfinite hinf => fpAdd_of_isInf_right hnan hinf (by simp [hfinite]),
    fpAdd_of_isZeroClass, fpAdd_of_isZeroClass_left, fpAdd_of_isZeroClass_right⟩

/-- Settles O17: see `fpAdd_eq_roundValue`. -/
theorem faddRoundsExactSum : Obligations.FaddRoundsExactSum := fun _ _ s ha hb =>
  ⟨_, exec_fadd .., operationsChangeOnlyTheirUnit _ s _ (exec_fadd ..), fpAdd_eq_roundValue ha hb⟩

/-- Settles O18: see `fpAdd_comm`. -/
theorem faddCommutes : Obligations.FaddCommutes := fun _ _ _ hnan hinf =>
  ⟨_, _, exec_fadd .., exec_fadd .., fpAdd_comm hnan hinf⟩

/-- Settles O19: FSUB is defined as FADD with the sign of its second operand flipped (R130). -/
theorem fsubAddsFlippedOperand : Obligations.FsubAddsFlippedOperand := fun _ _ s =>
  ⟨_, exec_fsub .., operationsChangeOnlyTheirUnit _ s _ (exec_fsub ..), _, exec_fadd .., rfl⟩

/-- Settles O20: the exact sum of a normal operand and its opposite is zero; the others are lines 3 and 6 of R125. -/
theorem oppositeOperandsCancel : Obligations.OppositeOperandsCancel := by
  intro x s
  have hcancel : isNorm x = true → fpAdd s.cfg x (flipSign x) = 0x0000#16 := fun hnorm => by
    have hfinite := nonzeroFinite_of_isNorm s.cfg hnorm
    rw [fpAdd_eq_roundValue hfinite (by rwa [nonzeroFinite_flipSign]), valueUnits_flipSign, Int.add_right_neg]
    rfl
  refine ⟨fun hnorm => ⟨_, exec_fadd .., hcancel hnorm⟩, fun hnorm => ⟨_, exec_fsub .., hcancel hnorm⟩,
    fun hinf => ⟨_, exec_fsub .., ?_⟩, fun hzero => ⟨_, exec_fsub .., ?_⟩⟩
  · exact fpAdd_of_opposite_isInf hinf (by rwa [isInf_flipSign]) (by simp)
  · have hclass : isZeroClass s.cfg x = true := isZeroClass_iff.mpr (.inl hzero)
    have hsum := fpAdd_of_isZeroClass hclass (by rwa [isZeroClass_flipSign] : isZeroClass s.cfg (flipSign x) = true)
    rw [sign_flipSign, Bool.and_not_self] at hsum
    exact hsum

/-- Settles O21: the lines of R140, one lemma each. -/
theorem fmulSpecialOperands : Obligations.FmulSpecialOperands := by
  refine fun a b s => ⟨_, exec_fmul .., operationsChangeOnlyTheirUnit _ s _ (exec_fmul ..), ?_⟩
  simp only [Bool.not_eq_true]
  exact ⟨fpMul_of_isNaN_left, fpMul_of_isNaN_right, fpMul_of_isInf_isZeroClass, fpMul_of_isZeroClass_isInf,
    fpMul_of_isInf_left, fpMul_of_isInf_right, fpMul_of_isZeroClass_left, fpMul_of_isZeroClass_right⟩

/-- Settles O22: see `mulMagnitudes_eq_roundExact`. -/
theorem fmulRoundsExactProduct : Obligations.FmulRoundsExactProduct := fun _ _ s ha hb =>
  ⟨_, exec_fmul .., operationsChangeOnlyTheirUnit _ s _ (exec_fmul ..),
    (fpMul_of_nonzeroFinite ha hb).trans (mulMagnitudes_eq_roundExact ha hb _)⟩

/-- Settles O23: see `fpMul_comm`. -/
theorem fmulCommutes : Obligations.FmulCommutes := fun _ _ _ hnan =>
  ⟨_, _, exec_fmul .., exec_fmul .., fpMul_comm hnan⟩

/-- Settles O25: FMAX selects, and its key is the greater one (R150). -/
theorem fmaxIsGreaterInCodeOrder : Obligations.FmaxIsGreaterInCodeOrder := by
  refine fun a b s => ⟨_, exec_fmax .., operationsChangeOnlyTheirUnit _ s _ (exec_fmax ..), fpMax_eq_or a b, ?_⟩
  change orderKey a ≤ orderKey (fpMax a b) ∧ orderKey b ≤ orderKey (fpMax a b)
  rw [orderKey_fpMax]
  exact ⟨le_max_left .., le_max_right ..⟩

/-- Settles O26: FMAX is the maximum of a total order (R151 (d)). -/
theorem fmaxCommutesAssociatesRepeats : Obligations.FmaxCommutesAssociatesRepeats := by
  refine ⟨fun a b => ?_, fun a b c => ?_, fun a => ?_⟩ <;> apply orderKey_injective <;> simp only [orderKey_fpMax]
  · exact max_comm ..
  · exact max_assoc ..
  · exact max_self _

end Sys2Proof.Machine
end

section
/-!
PROOFS of the statement about LOD (`41_lod_threshold.md`): the scan runs over `x[31:16]` as a number, the statement
speaks of bits of `x`.
-/

namespace Sys2Proof.Machine

/-! ### The scan in LOD -/

/-- The scan falls back to 0 when no bit is set (R161). -/
@[simp] theorem leadingOne_zero (n : Nat) : leadingOne 0 n = 0 := by
  induction n with
  | zero => rfl
  | succ n ih => simpa [leadingOne] using ih

/-- The integer field LOD scans, as a number. -/
theorem integerField_toNat (x : Fixed) : (x.extractLsb' 16 16).toNat = x.toNat / 2 ^ 16 := by
  have hx := x.isLt
  rw [slice_toNat]
  omega

/-- The bits of the integer field are bits of `x` itself. -/
theorem testBit_integerField (x : Fixed) (j : Nat) : (x.toNat / 2 ^ 16).testBit j = x.getLsbD (16 + j) := by
  rw [Nat.testBit_div_two_pow, Nat.add_comm, BitVec.getLsbD]

/-- LOD's index fits its 4-bit port. -/
@[simp] theorem leadingOneThreshold_pos_toNat (p : Params) (x : Fixed) :
    (leadingOneThreshold p x).pos.toNat = leadingOne (x.toNat / 2 ^ 16) 16 := by
  have hfits : leadingOne (x.toNat / 2 ^ 16) 16 < 2 ^ 4 := leadingOne_lt _ (by decide)
  rw [leadingOneThreshold, integerField_toNat, BitVec.toNat_ofNat, Nat.mod_eq_of_lt hfits]

/-- LOD's flag is the bit below the index on its port (R161). -/
theorem leadingOneThreshold_flag (p : Params) (x : Fixed) :
    (leadingOneThreshold p x).flag = x.getLsbD (15 + (leadingOneThreshold p x).pos.toNat) := by
  rw [leadingOneThreshold_pos_toNat, leadingOneThreshold, integerField_toNat, overHalf]

/-- With no integer bit set LOD's index is 0 (R161). -/
theorem leadingOneThreshold_pos_of_integerField_zero (p : Params) {x : Fixed} (h : x.toNat / 2 ^ 16 = 0) :
    (leadingOneThreshold p x).pos = 0 := by
  apply BitVec.eq_of_toNat_eq
  rw [leadingOneThreshold_pos_toNat, h, leadingOne_zero]
  rfl

/-- With some integer bit set LOD's index is that of a set one: a nonzero number has a set bit, and one of 16 bits has
it where the scan looks. -/
theorem getLsbD_leadingOneThreshold_pos (p : Params) {x : Fixed} (h : x.toNat / 2 ^ 16 ≠ 0) :
    x.getLsbD (16 + (leadingOneThreshold p x).pos.toNat) = true := by
  obtain ⟨i, hi⟩ := Nat.exists_testBit_of_ne_zero h
  have hinside : 16 + i < 32 := BitVec.lt_of_getLsbD (testBit_integerField x i ▸ hi)
  rw [leadingOneThreshold_pos_toNat, ← testBit_integerField]
  exact leadingOne_set (by omega) hi

/-- No integer bit above LOD's index is set. -/
theorem getLsbD_above_leadingOneThreshold_pos (p : Params) (x : Fixed) {j : Nat}
    (habove : (leadingOneThreshold p x).pos.toNat < j) (hj : j < 16) : x.getLsbD (16 + j) = false := by
  rw [leadingOneThreshold_pos_toNat] at habove
  rw [← testBit_integerField]
  exact leadingOne_above habove hj

/-! ### The statement -/

/-- Settles O27: what the scan finds, read as bits of `x` (R161); the literal is the one the flag selects by definition
(R162). -/
theorem lodFindsLeadingOne : Obligations.LodFindsLeadingOne := fun x s =>
  ⟨_, exec_lod .., operationsChangeOnlyTheirUnit _ s _ (exec_lod ..),
    leadingOneThreshold_pos_of_integerField_zero s.cfg,
    fun hsome => ⟨getLsbD_leadingOneThreshold_pos s.cfg hsome,
      fun _ habove hj => getLsbD_above_leadingOneThreshold_pos s.cfg x habove hj⟩,
    leadingOneThreshold_flag s.cfg x, rfl⟩

end Sys2Proof.Machine
end

section
/-!
PROOFS of the statements about LOG2 (`42_log2.md`): with `w` the window and `E` the exponent field, the code is
`min(15, floor(23 * w * 2^E / 2^23))` at every `E`. The two thresholds of R172 stand where this floor is 0 and where it
is above 15, and `w * 2^E` grows with the 15-bit field.
-/

namespace Sys2Proof.Machine

/-! ### What LOG2 reads -/

theorem expo_toNat (x : Fp16) : (expo x).toNat = x.toNat / 1024 % 32 := slice_toNat x 10 5

/-- The window is an implicit 1 above the four mantissa bits (R171). -/
theorem log2Window_toNat (x : Fp16) : (log2Window x).toNat = 16 + x.toNat / 64 % 16 := by
  rw [log2Window, append_toNat, slice_toNat]
  rfl

/-- LOG2 reads the exponent field and the window, nothing else (R171). -/
theorem log2Code_congr {x y : Fp16} (hexpo : expo x = expo y) (hwindow : log2Window x = log2Window y) :
    log2Code x = log2Code y := by
  rw [log2Code, log2Code, hexpo, hwindow]

/-- The sign is outside the exponent field and the window (R176 (c)). -/
theorem log2Code_flipSign (x : Fp16) : log2Code (flipSign x) = log2Code x := by
  refine log2Code_congr (expo_flipSign x) ?_
  have hmask : BitVec.extractLsb' 6 4 0x8000#16 = 0#4 := by decide
  rw [log2Window, flipSign, BitVec.extractLsb'_xor, hmask, BitVec.xor_zero, log2Window]

/-- The six low mantissa bits are below the window (R176 (d)). -/
theorem log2Code_or_low (x : Fp16) : log2Code (x ||| 0x003F#16) = log2Code x := by
  have hexpo : BitVec.extractLsb' 10 5 0x003F#16 = 0#5 := by decide
  have hwindow : BitVec.extractLsb' 6 4 0x003F#16 = 0#4 := by decide
  apply log2Code_congr
  · rw [expo, BitVec.extractLsb'_or, hexpo, BitVec.or_zero, expo]
  · rw [log2Window, BitVec.extractLsb'_or, hwindow, BitVec.or_zero, log2Window]

/-! ### The shifted sum -/

/-- One and a half less a sixteenth is 23 sixteenths, and 18 bits hold it (R172). -/
theorem log2Sum_toNat (w : BitVec 5) : (log2Sum w).toNat = 736 * w.toNat := by
  have hw := w.isLt
  rw [log2Sum]
  bv_omega

/-- The shifted sum `sh` of R172. -/
def log2Scaled (E : Nat) (w : BitVec 5) : BitVec 18 :=
  if 15 ≤ E then log2Sum w <<< (E - 15) else log2Sum w >>> (15 - E)

/-- Between the thresholds the integer part of the shifted sum is the floor of R174: no bit is shifted out above. -/
theorem log2Scaled_integerPart {E : Nat} (hlow : 14 ≤ E) (hhigh : E ≤ 18) (w : BitVec 5) :
    (log2Scaled E w).toNat / 2 ^ 13 = 23 * w.toNat * 2 ^ E / 2 ^ 23 := by
  have hw := w.isLt
  by_cases hleft : 15 ≤ E
  · obtain ⟨k, rfl⟩ := Nat.exists_eq_add_of_le hleft
    have hpow : 2 ^ k ≤ 2 ^ 3 := Nat.pow_le_pow_right (by decide) (by omega)
    have hfits : 736 * w.toNat * 2 ^ k < 2 ^ 18 :=
      calc 736 * w.toNat * 2 ^ k ≤ 736 * 31 * 2 ^ 3 := Nat.mul_le_mul (by omega) hpow
        _ < 2 ^ 18 := by decide
    rw [log2Scaled, if_pos hleft, BitVec.toNat_shiftLeft, Nat.shiftLeft_eq, log2Sum_toNat, Nat.add_sub_cancel_left,
      Nat.mod_eq_of_lt hfits, Nat.pow_add]
    calc 736 * w.toNat * 2 ^ k / 2 ^ 13
        = 736 * w.toNat * 2 ^ k * 2 ^ 10 / (2 ^ 13 * 2 ^ 10) := (Nat.mul_div_mul_right _ _ (by decide)).symm
      _ = 23 * w.toNat * (2 ^ 15 * 2 ^ k) / 2 ^ 23 := by congr 1; ring
  · obtain rfl : E = 14 := by omega
    rw [log2Scaled, if_neg hleft, BitVec.toNat_ushiftRight, Nat.shiftRight_eq_div_pow, log2Sum_toNat]
    omega

/-! ### The code as a number -/

theorem log2Code_of_expo_le {x : Fp16} (h : (expo x).toNat ≤ 13) : log2Code x = 0x0 := if_pos h

theorem log2Code_of_expo_ge {x : Fp16} (h : 19 ≤ (expo x).toNat) : log2Code x = 0xF := by
  rw [log2Code, if_neg (by omega), if_pos h]

/-- Between the thresholds the code is the integer part of the shifted sum, cut at 15: at exponent 18 the carry is set
exactly when it exceeds 15, and below 18 it never does (R174). -/
theorem log2Code_of_expo_between {x : Fp16} (hlow : 14 ≤ (expo x).toNat) (hhigh : (expo x).toNat ≤ 18) :
    (log2Code x).toNat = min 15 ((log2Scaled (expo x).toNat (log2Window x)).toNat / 2 ^ 13) := by
  have hsmall : (expo x).toNat ≤ 17 → (log2Scaled (expo x).toNat (log2Window x)).toNat / 2 ^ 13 < 16 := fun h => by
    have hw := (log2Window x).isLt
    rw [log2Scaled_integerPart hlow hhigh, Nat.div_lt_iff_lt_mul (by decide)]
    calc 23 * (log2Window x).toNat * 2 ^ (expo x).toNat ≤ 23 * 31 * 2 ^ 17 :=
          Nat.mul_le_mul (by omega) (Nat.pow_le_pow_right (by decide) h)
      _ < 16 * 2 ^ 23 := by decide
  have hcode : log2Code x =
      if (expo x).toNat = 18 ∧ log2Carry (log2Scaled (expo x).toNat (log2Window x)) = true then 0xF
      else (log2Scaled (expo x).toNat (log2Window x)).extractLsb' 13 4 := by
    rw [log2Code, if_neg (by omega), if_neg (by omega), log2Scaled]
  rw [hcode]
  generalize log2Scaled (expo x).toNat (log2Window x) = sh at hsmall
  have hsh := sh.isLt
  simp only [log2Carry, bit_eq, decide_eq_true_eq]
  split
  case isTrue hsaturated =>
    change 15 = _
    omega
  case isFalse hfits =>
    rw [slice_toNat]
    omega

/-- LOG2 at every exponent: the floor is 0 up to 13 and above 15 from 19 on (R172, R174). -/
theorem log2Code_toNat (x : Fp16) :
    (log2Code x).toNat = min 15 (23 * (log2Window x).toNat * 2 ^ (expo x).toNat / 2 ^ 23) := by
  have hlow : 16 ≤ (log2Window x).toNat := by
    rw [log2Window_toNat]
    omega
  have hhigh := (log2Window x).isLt
  obtain hE | hE | ⟨hE, hE'⟩ : (expo x).toNat ≤ 13 ∨ 19 ≤ (expo x).toNat ∨
      14 ≤ (expo x).toNat ∧ (expo x).toNat ≤ 18 := by omega
  · have hfloor : 23 * (log2Window x).toNat * 2 ^ (expo x).toNat / 2 ^ 23 = 0 := Nat.div_eq_of_lt <|
      calc 23 * (log2Window x).toNat * 2 ^ (expo x).toNat ≤ 23 * 31 * 2 ^ 13 :=
            Nat.mul_le_mul (by omega) (Nat.pow_le_pow_right (by decide) hE)
        _ < 2 ^ 23 := by decide
    rw [log2Code_of_expo_le hE, hfloor]
    rfl
  · have hfloor : 15 ≤ 23 * (log2Window x).toNat * 2 ^ (expo x).toNat / 2 ^ 23 :=
      (Nat.le_div_iff_mul_le (by decide)).mpr <|
      calc 15 * 2 ^ 23 ≤ 23 * 16 * 2 ^ 19 := by decide
        _ ≤ 23 * (log2Window x).toNat * 2 ^ (expo x).toNat :=
            Nat.mul_le_mul (by omega) (Nat.pow_le_pow_right (by decide) hE)
    rw [log2Code_of_expo_ge hE, min_eq_left hfloor]
    rfl
  · rw [log2Code_of_expo_between hE hE', log2Scaled_integerPart hE hE']

/-! ### Monotonicity -/

/-- The magnitude cut to five significant bits grows with exponent and mantissa read as one number: a window is below
32, so the least one an exponent higher is not less. -/
theorem window_mul_two_pow_mono {m n E F : Nat} (hm : m < 16) (hn : n < 16) (h : 16 * E + m ≤ 16 * F + n) :
    (16 + m) * 2 ^ E ≤ (16 + n) * 2 ^ F := by
  obtain rfl | hlt : E = F ∨ E + 1 ≤ F := by omega
  · exact Nat.mul_le_mul_right _ (by omega)
  · calc (16 + m) * 2 ^ E ≤ 32 * 2 ^ E := Nat.mul_le_mul_right _ (by omega)
      _ = 16 * 2 ^ (E + 1) := by ring
      _ ≤ (16 + n) * 2 ^ F := Nat.mul_le_mul (by omega) (Nat.pow_le_pow_right (by decide) hlt)

/-- LOG2 never falls as the 15-bit field rises (R176 (e)). -/
theorem log2Code_mono {x y : Fp16} (h : x.toNat % 2 ^ 15 ≤ y.toNat % 2 ^ 15) :
    (log2Code x).toNat ≤ (log2Code y).toNat := by
  have hmagnitude : (log2Window x).toNat * 2 ^ (expo x).toNat ≤ (log2Window y).toNat * 2 ^ (expo y).toNat := by
    rw [log2Window_toNat, log2Window_toNat, expo_toNat, expo_toNat]
    exact window_mul_two_pow_mono (by omega) (by omega) (by omega)
  rw [log2Code_toNat, log2Code_toNat, Nat.mul_assoc, Nat.mul_assoc]
  exact min_le_min_left 15 (Nat.div_le_div_right (Nat.mul_le_mul_left 23 hmagnitude))

/-! ### The statements -/

/-- Settles O28: the clauses at the thresholds are those of R172, and the floor between them is `log2Code_toNat` with
`2^14` cancelled. -/
theorem log2FollowsClosedForm : Obligations.Log2FollowsClosedForm := by
  refine fun x s => ⟨_, exec_log2 .., operationsChangeOnlyTheirUnit _ s _ (exec_log2 ..), ?_⟩
  rw [← expo_toNat, ← log2Window_toNat]
  change (log2Code x).toNat = _
  split
  case isTrue hlow => exact congrArg BitVec.toNat (log2Code_of_expo_le hlow)
  case isFalse hlow =>
    split
    case isTrue hhigh => exact congrArg BitVec.toNat (log2Code_of_expo_ge hhigh)
    case isFalse =>
      obtain ⟨k, hk⟩ : ∃ k, (expo x).toNat = k + 14 := Nat.exists_eq_add_of_le' (by omega)
      rw [log2Code_toNat, hk, Nat.add_sub_cancel, Nat.pow_add, ← Nat.mul_assoc]
      exact congrArg (min 15) (Nat.mul_div_mul_right _ 512 (by decide : 0 < 2 ^ 14))

/-- Settles O29: sign and low mantissa bits are not read, and the code is a floor of a growing magnitude (R176). -/
theorem log2IgnoresSignAndIsMonotone : Obligations.Log2IgnoresSignAndIsMonotone :=
  ⟨log2Code_flipSign, log2Code_or_low, fun _ _ => log2Code_mono⟩

end Sys2Proof.Machine
end

section
/-!
PROOFS of the statements about MAX4 (`43_max4.md`): one edge, and the edge after it as the maximum of a row.
-/

namespace Sys2Proof.Machine

/-! ### The registers and the tree -/

/-- Register `R_AB` after an edge (R181). -/
theorem nextMax4_rAB (reset : Bool) (a b c d : Fp16) :
    (nextMax4 reset a b c d).rAB = if reset then 0x0000#16 else fpMax a b := by
  cases reset <;> rfl

/-- Register `R_CD` after an edge (R181). -/
theorem nextMax4_rCD (reset : Bool) (a b c d : Fp16) :
    (nextMax4 reset a b c d).rCD = if reset then 0x0000#16 else fpMax c d := by
  cases reset <;> rfl

/-- What MAX4 shows in the cycle after an edge without reset: the tree over the four inputs (R182). -/
theorem maxOut_nextMax4 (a b c d : Fp16) : maxOut (nextMax4 false a b c d) = fpMax (fpMax a b) (fpMax c d) := rfl

/-- What MAX4 shows in the cycle after a reset (R183 (a)). -/
theorem maxOut_nextMax4_reset (a b c d : Fp16) : maxOut (nextMax4 true a b c d) = 0x0000#16 :=
  (fpMax_eq_or 0x0000#16 0x0000#16).elim id id

/-- The tree answers one of its four inputs, NaN and subnormal codes included (R183 (c)). -/
theorem fpMax_tree_mem (a b c d : Fp16) : fpMax (fpMax a b) (fpMax c d) ∈ [a, b, c, d] := by
  rcases fpMax_eq_or (fpMax a b) (fpMax c d) with hout | hout <;> rw [hout]
  · rcases fpMax_eq_or a b with hab | hab <;> simp [hab]
  · rcases fpMax_eq_or c d with hcd | hcd <;> simp [hcd]

/-- No input of the tree is above its answer: each comparator keeps the greater key (R150, R151 (d)). -/
theorem orderKey_le_fpMax_tree {a b c d z : Fp16} (hz : z ∈ [a, b, c, d]) :
    orderKey z ≤ orderKey (fpMax (fpMax a b) (fpMax c d)) := by
  simp only [orderKey_fpMax, le_max_iff]
  simp only [List.mem_cons, List.not_mem_nil, or_false] at hz
  rcases hz with rfl | rfl | rfl | rfl
  · exact .inl (.inl le_rfl)
  · exact .inl (.inr le_rfl)
  · exact .inr (.inl le_rfl)
  · exact .inr (.inr le_rfl)

/-! ### Two edges -/

/-- Two edges of MAX4: the second shows the tree over what the first one committed, whatever its own inputs (R182). -/
theorem execAll_max4_max4 (reset reset' : Bool) (a b c d a' b' c' d' : Fp16) (s : State) :
    ∃ t, execAll [.max4 reset a b c d, .max4 reset' a' b' c' d'] s = .next t ∧
      t.out.max4 = maxOut (nextMax4 reset a b c d) := by
  rw [execAll_cons_next (exec_max4 ..), execAll_single]
  exact ⟨_, exec_max4 .., rfl⟩

/-! ### The statements -/

/-- Settles O32: the equation of one edge, and the two registers it commits (R181). -/
theorem max4CommitsPairMaxima : Obligations.Max4CommitsPairMaxima := fun reset a b c d s =>
  ⟨_, exec_max4 .., operationsChangeOnlyTheirUnit _ s _ (exec_max4 ..), rfl,
    nextMax4_rAB reset a b c d, nextMax4_rCD reset a b c d⟩

/-- Settles O33: the second edge shows the tree over the first edge's inputs, or over two zeros after a reset. -/
theorem max4ShowsRowMaximumNextCycle : Obligations.Max4ShowsRowMaximumNextCycle := by
  intro a b c d a' b' c' d' reset' s
  constructor
  · obtain ⟨t, hrun, hshown⟩ := execAll_max4_max4 false reset' a b c d a' b' c' d' s
    rw [maxOut_nextMax4] at hshown
    exact ⟨t, hrun, hshown ▸ fpMax_tree_mem a b c d, fun _ hz => hshown ▸ orderKey_le_fpMax_tree hz⟩
  · obtain ⟨t, hrun, hshown⟩ := execAll_max4_max4 true reset' a b c d a' b' c' d' s
    exact ⟨t, hrun, hshown.trans (maxOut_nextMax4_reset a b c d)⟩

end Sys2Proof.Machine
end

section
/-!
PROOFS of the statements about EXPSUM (`44_expsum.md`): one edge, and the edge after it as an exact sum of powers of two.
-/

namespace Sys2Proof.Machine

/-! ### The registers -/

/-- Register `P01` after an edge (R191, R192). -/
theorem nextExpsum_p01 (reset : Bool) (vec : PackedVec) :
    (nextExpsum reset vec).p01 =
      if reset then 0#32 else laneVal (vec.extractLsb' 0 4) + laneVal (vec.extractLsb' 4 4) := by
  cases reset <;> rfl

/-- Register `P23` after an edge (R191, R192). -/
theorem nextExpsum_p23 (reset : Bool) (vec : PackedVec) :
    (nextExpsum reset vec).p23 =
      if reset then 0#32 else laneVal (vec.extractLsb' 8 4) + laneVal (vec.extractLsb' 12 4) := by
  cases reset <;> rfl

/-- What EXPSUM shows in the cycle after an edge without reset: the tree over the four codes of the vector (R194). -/
theorem sumOut_nextExpsum (vec : PackedVec) :
    sumOut (nextExpsum false vec) = sumOut (partialSums (lanes4 vec)) := rfl

/-! ### The tree as a sum of numbers -/

/-- A lane value lies between the powers of two of code 15 and of code 0 (R193). -/
theorem laneVal_bounds (c : Code) : 2 ≤ (laneVal c).toNat ∧ (laneVal c).toNat ≤ 0x10000 := by
  have hc := c.isLt
  have hexponent : 1 ≤ 16 - c.toNat := by omega
  rw [laneVal_toNat]
  exact ⟨Nat.pow_le_pow_right two_pos hexponent, Nat.pow_le_pow_right two_pos (Nat.sub_le 16 _)⟩

/-- None of the three adds of the tree wraps, so what it shows is the sum of the lane values as numbers (R193). -/
theorem sumOut_partialSums_toNat (q : Quad Code) :
    (sumOut (partialSums q)).toNat =
      (laneVal q.l0).toNat + (laneVal q.l1).toNat + (laneVal q.l2).toNat + (laneVal q.l3).toNat := by
  have h0 := laneVal_bounds q.l0
  have h1 := laneVal_bounds q.l1
  have h2 := laneVal_bounds q.l2
  have h3 := laneVal_bounds q.l3
  simp only [sumOut, partialSums, BitVec.toNat_add]
  omega

/-- The exact sum of the powers of two of the four codes of a vector, each code a hexadecimal digit of it (R85, R194). -/
theorem sumOut_partialSums_lanes4 (vec : PackedVec) :
    (sumOut (partialSums (lanes4 vec))).toNat =
      2 ^ (16 - vec.toNat % 16) + 2 ^ (16 - vec.toNat / 16 % 16) + 2 ^ (16 - vec.toNat / 256 % 16) +
        2 ^ (16 - vec.toNat / 4096 % 16) := by
  simp only [sumOut_partialSums_toNat, laneVal_toNat, lanes4, slice_toNat, Nat.reducePow, Nat.div_one]

/-- Four lane values sum to between 8 and `2^18` (R193). -/
theorem sumOut_partialSums_bounds (q : Quad Code) :
    8 ≤ (sumOut (partialSums q)).toNat ∧ (sumOut (partialSums q)).toNat ≤ 0x00040000 := by
  have h0 := laneVal_bounds q.l0
  have h1 := laneVal_bounds q.l1
  have h2 := laneVal_bounds q.l2
  have h3 := laneVal_bounds q.l3
  rw [sumOut_partialSums_toNat]
  omega

/-! ### Two edges -/

/-- Two edges of EXPSUM: the second shows the sum of what the first one committed, whatever its own inputs (R194). -/
theorem execAll_expsum_expsum (reset reset' : Bool) (vec vec' : PackedVec) (s : State) :
    ∃ t, execAll [.expsum reset vec, .expsum reset' vec'] s = .next t ∧ t.out.expsum = sumOut (nextExpsum reset vec) := by
  rw [execAll_cons_next (exec_expsum ..), execAll_single]
  exact ⟨_, exec_expsum .., rfl⟩

/-! ### The statements -/

/-- Settles O34: the equation of one edge, and the two registers it commits (R192). -/
theorem expsumCommitsPartialSums : Obligations.ExpsumCommitsPartialSums := fun reset vec s =>
  ⟨_, exec_expsum .., operationsChangeOnlyTheirUnit _ s _ (exec_expsum ..), rfl,
    nextExpsum_p01 reset vec, nextExpsum_p23 reset vec⟩

/-- Settles O35: the second edge shows the tree over the first edge's vector, whose adds are exact (R193, R194). -/
theorem expsumShowsExactSumNextCycle : Obligations.ExpsumShowsExactSumNextCycle := by
  intro vec vec' reset' s
  obtain ⟨t, hrun, hshown⟩ := execAll_expsum_expsum false reset' vec vec' s
  rw [sumOut_nextExpsum] at hshown
  exact ⟨t, hrun, hshown ▸ sumOut_partialSums_lanes4 vec, hshown ▸ sumOut_partialSums_bounds (lanes4 vec)⟩

end Sys2Proof.Machine
end

section
/-!
PROOFS of the statements about RDIV (`45_rdiv.md`): the exponent of the quotient is a truncated difference of numbers, and
both statements read it.
-/

namespace Sys2Proof.Machine

/-- The divider takes the right shift from the threshold's exponent as numbers, so that 0 is the clamp's lower bound, and
the 5-bit field holds the difference (R201, R202 (a)). -/
@[simp] theorem expo_approxDivide_toNat (ky ks : Nat) (thr : Fp16) :
    (expo (approxDivide ky ks thr)).toNat = (expo thr).toNat - (ky + ks) := by
  have hexpo : (expo thr).toNat < 2 ^ 5 := (expo thr).isLt
  have hfits : (expo thr).toNat - (ky + ks) < 2 ^ 5 := (Nat.sub_le ..).trans_lt hexpo
  rw [approxDivide, expo_packFp, clampExp_sub (Nat.le_of_lt_succ hexpo), BitVec.ofInt_natCast, BitVec.toNat_ofNat,
    Nat.mod_eq_of_lt hfits]

/-! ### The statements -/

/-- Settles O30: the three fields of the divider's code, which hold for shifts of any width (R201). -/
theorem rdivSubtractsFromExponent : Obligations.RdivSubtractsFromExponent := by
  constructor
  · intro ky ks thr s
    exact ⟨_, exec_rdiv .., operationsChangeOnlyTheirUnit _ s _ (exec_rdiv ..), sign_approxDivide ..,
      mant_approxDivide .., expo_approxDivide_toNat ..⟩
  · intro ky ks thr
    exact ⟨sign_approxDivide .., mant_approxDivide .., expo_approxDivide_toNat ..⟩

/-- Settles O31: a truncated difference never rises with what is taken away (R202 (b)). -/
theorem rdivNeverRaisesExponent : Obligations.RdivNeverRaisesExponent := by
  intro ky ks ky' ks' thr hshift
  rw [expo_approxDivide_toNat, expo_approxDivide_toNat]
  exact Nat.sub_le_sub_left hshift _

end Sys2Proof.Machine
end

section
/-!
PROOFS of the statements about RMAX (`46_rmax.md`): one edge, the read, and `GMAX` as the maximum folded over a list of
values written.
-/

namespace Sys2Proof.Machine

/-! ### FMAX folded over a list of values -/

/-- FMAX folded over a list answers the value it started from or one of the list (R150). -/
theorem foldl_fpMax_mem (g : Fp16) (vs : List Fp16) : vs.foldl fpMax g ∈ g :: vs := by
  induction vs generalizing g with
  | nil => exact List.mem_singleton_self g
  | cons v vs ih =>
    rw [List.foldl_cons]
    rcases List.mem_cons.mp (ih (fpMax g v)) with hhead | hlater
    · rw [hhead]
      rcases fpMax_eq_or g v with hmax | hmax <;> simp [hmax]
    · exact List.mem_cons_of_mem _ (List.mem_cons_of_mem _ hlater)

/-- Neither the start nor any value of the list is above the fold: each FMAX keeps the greater key (R150, R151 (d)). -/
theorem orderKey_le_foldl_fpMax (g : Fp16) (vs : List Fp16) :
    ∀ v ∈ g :: vs, orderKey v ≤ orderKey (vs.foldl fpMax g) := by
  induction vs generalizing g with
  | nil => simp
  | cons x vs ih =>
    obtain ⟨hhead, hlater⟩ := List.forall_mem_cons.mp (ih (fpMax g x))
    rw [orderKey_fpMax, max_le_iff] at hhead
    obtain ⟨hstart, hx⟩ := hhead
    exact List.forall_mem_cons.mpr ⟨hstart, List.forall_mem_cons.mpr ⟨hx, hlater⟩⟩

/-! ### A list of writes -/

/-- `GMAX` after any list of writes: FMAX folded over the values from the `GMAX` before, whichever slots they went to
(R211). -/
theorem execAll_writes_gmax (ws : List (SlotAddr × Fp16)) (s : State) :
    Completes (execAll (ws.map fun w => .rmaxwr false true w.1 w.2) s) fun t =>
      t.rmax.gmax = (ws.map Prod.snd).foldl fpMax s.rmax.gmax := by
  induction ws generalizing s with
  | nil => exact ⟨s, rfl, rfl⟩
  | cons w ws ih =>
    rw [List.map_cons, execAll_cons_next (exec_rmaxwr ..)]
    exact ih (s.withRmax (nextRmax false true w.1 w.2 s.rmax))

/-! ### The statements -/

/-- Settles O36: the registers of one edge (R211), one clause for each value of `reset` and `we`. -/
theorem rmaxWriteUpdatesSlotAndMaximum : Obligations.RmaxWriteUpdatesSlotAndMaximum := by
  intro reset we waddr wdata s hwf
  refine ⟨_, exec_rmaxwr .., operationsChangeOnlyTheirUnit _ s _ (exec_rmaxwr ..), rfl, ?reset, ?write, ?keep⟩
  case reset =>
    rintro rfl
    exact ⟨rfl, readSlots_nextRmax_eq_ite true we waddr wdata hwf⟩
  case write =>
    rintro rfl rfl
    refine ⟨gmax_nextRmax true waddr wdata s.rmax, fun n => ?_⟩
    simpa only [withRmax_rmax, true_and] using readSlots_nextRmax true waddr wdata hwf n
  case keep =>
    rintro rfl rfl
    rfl

/-- Settles O37: the read is a function of the registers of the last edge (R62, R212). -/
theorem rmaxReadShowsCommittedState : Obligations.RmaxReadShowsCommittedState := fun _ s =>
  ⟨_, exec_rmaxrd .., operationsChangeOnlyTheirUnit _ s _ (exec_rmaxrd ..), rfl⟩

/-- Settles O39: the reset edge leaves 0xFBFF (R213), and from there `GMAX` is FMAX folded over the values written. -/
theorem gmaxIsGreatestValueWritten : Obligations.GmaxIsGreatestValueWritten := by
  intro ws we waddr wdata s
  rw [execAll_cons_next (exec_rmaxwr ..)]
  obtain ⟨t, hrun, hgmax⟩ := execAll_writes_gmax ws (s.withRmax (nextRmax true we waddr wdata s.rmax))
  have hfold : t.rmax.gmax = (ws.map Prod.snd).foldl fpMax 0xFBFF#16 := hgmax
  have hmem := hfold ▸ foldl_fpMax_mem 0xFBFF#16 (ws.map Prod.snd)
  obtain ⟨hreset, hwritten⟩ := List.forall_mem_cons.mp (hfold ▸ orderKey_le_foldl_fpMax 0xFBFF#16 (ws.map Prod.snd))
  refine ⟨t, hrun, ?_, hreset, fun w hw => hwritten w.2 (List.mem_map_of_mem hw)⟩
  rcases List.mem_cons.mp hmem with hkept | hvalue
  · exact .inl hkept
  · obtain ⟨w, hw, hw2⟩ := List.mem_map.mp hvalue
    exact .inr ⟨w, hw, hw2.symm⟩

end Sys2Proof.Machine
end

section
/-!
PROOFS of the statements about PIPEMA (`47_pipe_ma.md`): one edge, a run of rows as the registers it leaves, a row in each
rank it passes, and the size of the accumulator.
-/

namespace Sys2Proof.Machine

/-! ### The registers after a run of rows -/

/-- The registers of PIPEMA after an edge with a row or bubble on the ports. -/
def MaInput.next (p : Params) (x : MaInput) (r : PipeMaRegs) : PipeMaRegs :=
  nextPipema p false x.inValid x.inAddr x.gmaxIn x.inWord r

/-- The registers of PIPEMA after one edge per row, from the first row on. -/
def regsAfter (p : Params) (xs : List MaInput) (r : PipeMaRegs) : PipeMaRegs := xs.foldl (fun r x => x.next p r) r

@[simp] theorem regsAfter_nil (p : Params) (r : PipeMaRegs) : regsAfter p [] r = r := rfl

@[simp] theorem regsAfter_cons (p : Params) (x : MaInput) (xs : List MaInput) (r : PipeMaRegs) :
    regsAfter p (x :: xs) r = regsAfter p xs (x.next p r) := rfl

/-- Executing a row commits its next registers and shows the old ones (R221). -/
theorem exec_row (x : MaInput) (s : State) :
    exec x.op s =
      .next ((s.withOut { s.out with pipema := showPipema s.pipema }).withPipema (x.next s.cfg s.pipema)) := rfl

/-- Rows executed one after the other leave `regsAfter`. -/
theorem execAll_rows (xs : List MaInput) (s : State) :
    Completes (execAll (xs.map MaInput.op) s) fun t => t.cfg = s.cfg ∧ t.pipema = regsAfter s.cfg xs s.pipema := by
  induction xs generalizing s with
  | nil => exact ⟨s, rfl, rfl, rfl⟩
  | cons x xs ih =>
    rw [List.map_cons, execAll_cons_next (exec_row x s), regsAfter_cons]
    exact ih _

/-- The last row of a run sees on the output ports what the rows before it have left in the registers. -/
theorem execAll_rows_concat (xs : List MaInput) (x : MaInput) (s : State) :
    Completes (execAll (xs.map MaInput.op ++ [x.op]) s) fun t =>
      t.out.pipema = showPipema (regsAfter s.cfg xs s.pipema) ∧
        t.pipema = x.next s.cfg (regsAfter s.cfg xs s.pipema) := by
  obtain ⟨t, hrun, hcfg, hregs⟩ := execAll_rows xs s
  rw [execAll_append hrun, execAll_single, ← hregs, ← hcfg]
  exact ⟨_, exec_row x t, rfl, rfl⟩

/-! ### A row in the ranks it passes -/

/-- A row in `S1`. -/
def MaInput.inS1 (x : MaInput) : StageS1 := nextS1 x.inValid x.inAddr x.inWord

/-- A row in `S2`, one edge later. -/
def MaInput.inS2 (x : MaInput) : StageS2 := nextS2 x.inS1

/-- A row in `S5`, three edges later; `gmaxIn` is that of the cycle in which it was in `S2` (R228). -/
def MaInput.inS5 (p : Params) (gmaxIn : Fp16) (x : MaInput) : StageS5 := nextS5 (nextS4 (nextS3 p gmaxIn x.inS2))

/-- Two edges carry a row into `S2`, whatever was in the ranks. -/
theorem regsAfter_s2 (p : Params) (row x1 : MaInput) (r : PipeMaRegs) : (regsAfter p [row, x1] r).s2 = row.inS2 := rfl

/-- Five edges carry a row into `S5`; of the rows after it only the `gmax_in` presented with the second counts. -/
theorem regsAfter_s5 (p : Params) (row x1 x2 x3 x4 : MaInput) (r : PipeMaRegs) :
    (regsAfter p [row, x1, x2, x3, x4] r).s5 = row.inS5 p x2.gmaxIn := rfl

/-- The row maximum read from `S2` is that of the four lanes (R224). -/
theorem rowMax_inS2 (x : MaInput) : rowMax x.inS2 = x.max := rfl

/-- The four codes of a row (R229). -/
def MaInput.codes (p : Params) (x : MaInput) : Quad Code :=
  Quad.map (fun lane => log2Code (fpSub p lane x.max)) ⟨x.lane 0, x.lane 1, x.lane 2, x.lane 3⟩

/-- The two partial sums in `S5`, as registers of an EXPSUM (R230). -/
def StageS5.partials (r : StageS5) : ExpsumRegs := ⟨r.p01, r.p23⟩

section
variable (p : Params) (gmaxIn : Fp16) (x : MaInput)

@[simp] theorem inS5_v : (x.inS5 p gmaxIn).v = x.inValid := rfl
@[simp] theorem inS5_addr : (x.inS5 p gmaxIn).addr = x.inAddr := rfl
@[simp] theorem inS5_vec : (x.inS5 p gmaxIn).vec = packVec (x.codes p) := rfl
@[simp] theorem inS5_sh : (x.inS5 p gmaxIn).sh = log2Code (fpSub p x.max gmaxIn) := rfl
@[simp] theorem inS5_partials : (x.inS5 p gmaxIn).partials = partialSums (x.codes p) := rfl

end

/-- The packed vector of a row as a number (R85). -/
theorem packVec_codes_toNat (p : Params) (x : MaInput) :
    (packVec (x.codes p)).toNat = x.code p 0 + 16 * x.code p 1 + 256 * x.code p 2 + 4096 * x.code p 3 := by
  rw [packVec_toNat]
  simp only [MaInput.codes, Quad.map_mk, MaInput.code]
  omega

/-- The sum a row adds to `ACC` as a number (R191, R193). -/
theorem sumOut_codes_toNat (p : Params) (x : MaInput) :
    (sumOut (partialSums (x.codes p))).toNat =
      2 ^ (16 - x.code p 0) + 2 ^ (16 - x.code p 1) + 2 ^ (16 - x.code p 2) + 2 ^ (16 - x.code p 3) := by
  simp only [sumOut_partialSums_toNat, laneVal_toNat, MaInput.codes, Quad.map_mk, MaInput.code]

/-! ### The accumulator as a number -/

/-- `ACC` after an edge, modulo `2^32` (R232). -/
theorem nextAcc_toNat (r : StageS5) (acc : Fixed) :
    (nextAcc r acc).toNat =
      if r.v then (acc.toNat / 2 ^ r.sh.toNat + (sumOut r.partials).toNat) % 2 ^ 32 else acc.toNat := by
  unfold nextAcc sumOut StageS5.partials
  split
  · rw [BitVec.toNat_add, BitVec.toNat_ushiftRight, Nat.shiftRight_eq_div_pow]
  · rfl

/-- The partial sums in `S5` are those of four lane values: each at most 2.0 (R193). -/
def StageS5.Bounded (r : StageS5) : Prop := r.p01.toNat ≤ 0x20000 ∧ r.p23.toNat ≤ 0x20000

/-- The edge leaves bounded partial sums in `S5`, whatever was in `S4`. -/
theorem bounded_nextS5 (r : StageS4) : (nextS5 r).Bounded := by
  have h0 := laneVal_bounds r.code.l0
  have h1 := laneVal_bounds r.code.l1
  have h2 := laneVal_bounds r.code.l2
  have h3 := laneVal_bounds r.code.l3
  simp only [StageS5.Bounded, nextS5, partialSums, BitVec.toNat_add]
  omega

/-- Bounded partial sums add without the modulus. -/
theorem sumOut_toNat_of_bounded {r : StageS5} (h : r.Bounded) :
    (sumOut r.partials).toNat = r.p01.toNat + r.p23.toNat := by
  obtain ⟨h01, h23⟩ := h
  simp only [sumOut, StageS5.partials, BitVec.toNat_add]
  omega

/-- With bounded partial sums `ACC` grows by at most 0x00040000 per edge: the shift and the modulus only lower it. -/
theorem nextAcc_le {r : StageS5} (h : r.Bounded) (acc : Fixed) : (nextAcc r acc).toNat ≤ acc.toNat + 0x40000 := by
  have hshift : acc.toNat / 2 ^ r.sh.toNat ≤ acc.toNat := Nat.div_le_self ..
  have hsum := sumOut_toNat_of_bounded h
  obtain ⟨h01, h23⟩ := h
  rw [nextAcc_toNat]
  split
  · exact (Nat.mod_le ..).trans (by omega)
  · exact Nat.le_add_right ..

/-- With bounded partial sums and `ACC` at least 0x00040000 below `2^32` the addition does not wrap. -/
theorem nextAcc_toNat_of_bounded {r : StageS5} (h : r.Bounded) {acc : Fixed} (hacc : acc.toNat + 0x40000 < 2 ^ 32) :
    (nextAcc r acc).toNat =
      if r.v then acc.toNat / 2 ^ r.sh.toNat + r.p01.toNat + r.p23.toNat else acc.toNat := by
  have hshift : acc.toNat / 2 ^ r.sh.toNat ≤ acc.toNat := Nat.div_le_self ..
  have hsum := sumOut_toNat_of_bounded h
  obtain ⟨h01, h23⟩ := h
  have hfits : acc.toNat / 2 ^ r.sh.toNat + (sumOut r.partials).toNat < 2 ^ 32 := by omega
  rw [nextAcc_toNat, Nat.mod_eq_of_lt hfits, hsum, Nat.add_assoc]

/-- A run of rows keeps `S5` bounded and adds at most 0x00040000 per row to `ACC`. -/
theorem regsAfter_bounded (p : Params) (xs : List MaInput) {r : PipeMaRegs} (h : r.s5.Bounded) :
    (regsAfter p xs r).s5.Bounded ∧ (regsAfter p xs r).acc.toNat ≤ r.acc.toNat + xs.length * 0x40000 := by
  induction xs generalizing r with
  | nil => exact ⟨h, Nat.le_add_right ..⟩
  | cons x xs ih =>
    have hfirst : (x.next p r).acc.toNat ≤ r.acc.toNat + 0x40000 := nextAcc_le h r.acc
    obtain ⟨hs5, hacc⟩ := ih (r := x.next p r) (bounded_nextS5 r.s4)
    rw [regsAfter_cons, List.length_cons]
    exact ⟨hs5, by omega⟩

/-! ### The statements -/

/-- Settles O42: the equation of one edge (R221); each rank's next value is the function of the rank before it that the
statement writes out. -/
theorem pipemaEdgeCommitsEveryRank : Obligations.PipemaEdgeCommitsEveryRank := by
  intro reset inValid inAddr gmaxIn inWord s
  refine ⟨_, exec_pipema .., operationsChangeOnlyTheirUnit _ s _ (exec_pipema ..), rfl, ?reset, ?advance⟩
  case reset =>
    rintro rfl
    rfl
  case advance =>
    rintro rfl
    exact ⟨rfl, rfl, rfl, rfl, rfl, rfl⟩

/-- Settles O43: the third edge shows the row in `S2`, the sixth shows it in `S5` and folds it into `ACC`. -/
theorem pipemaRowReachesItsPorts : Obligations.PipemaRowReachesItsPorts := by
  intro row x1 x2 x3 x4 x5 s
  constructor
  · obtain ⟨t, hrun, hshown, -⟩ := execAll_rows_concat [row, x1] x2 s
    refine ⟨t, hrun, ?_⟩
    simp only [hshown, showPipema, regsAfter_s2, rowMax_inS2]
    exact ⟨rfl, rfl, trivial⟩
  · obtain ⟨t, hrun, hshown, hregs⟩ := execAll_rows_concat [row, x1, x2, x3, x4] x5 s
    have hs5 := regsAfter_s5 s.cfg row x1 x2 x3 x4 s.pipema
    generalize regsAfter s.cfg [row, x1, x2, x3, x4] s.pipema = r at hshown hregs hs5
    have hacc : t.pipema.acc = nextAcc r.s5 r.acc := by rw [hregs]; rfl
    refine ⟨t, hrun, ?_⟩
    simp only [hshown, showPipema, hacc, nextAcc_toNat, hs5, inS5_v, inS5_addr, inS5_vec, inS5_sh, inS5_partials,
      packVec_codes_toNat, sumOut_codes_toNat, and_self]

/-- Settles O44: the run leaves `ACC` at least 0x00040000 below `2^32`, so the next edge adds without the modulus. -/
theorem accumulatorNeverWraps : Obligations.AccumulatorNeverWraps := by
  intro xs x s hlength hzero h01 h23
  obtain ⟨t, hrun, -, hregs⟩ := execAll_rows xs s
  obtain ⟨hs5, hacc⟩ := hregs ▸ regsAfter_bounded s.cfg xs (r := s.pipema) ⟨h01, h23⟩
  have hempty : s.pipema.acc.toNat = 0 := by rw [hzero]; rfl
  rw [hempty, Nat.zero_add] at hacc
  have hnext := nextAcc_le hs5 t.pipema.acc
  refine ⟨t, hrun, hacc, _, exec_row x t, ?_, nextAcc_toNat_of_bounded hs5 (by omega)⟩
  change (nextAcc t.pipema.s5 t.pipema.acc).toNat ≤ _
  omega

end Sys2Proof.Machine
end

section
/-!
PROOFS of the statement about the first pass (`47_pipe_ma.md`, `46_rmax.md`): a row or bubble per cycle passes `S1` and
`S2`, and the write its maximum then makes in RMAX is the next of a list of writes to slots of their own.
-/

namespace Sys2Proof.Machine

/-! ### The write a row makes -/

/-- RMAX after the write of a row's maximum; a bubble writes nothing (R226, R211). -/
def writeRow (r : RmaxRegs) (x : MaInput) : RmaxRegs := nextRmax false x.inValid x.inAddr x.max r

/-- A row without a valid bit leaves RMAX as it is (R30). -/
theorem writeRow_of_not_valid {x : MaInput} (h : x.inValid = false) (r : RmaxRegs) : writeRow r x = r := by
  simp [writeRow, nextRmax, h]

/-- A row keeps the slots canonical (log 6). -/
theorem wf_writeRow (x : MaInput) {r : RmaxRegs} (h : Memory.wf r.slot = true) :
    Memory.wf (writeRow r x).slot = true := by
  cases hv : x.inValid with
  | false => rwa [writeRow_of_not_valid hv]
  | true => simpa [writeRow, nextRmax, hv] using wf_writeSlots h x.inAddr x.max

/-! ### The writes of a list of rows -/

/-- The slots of the valid rows of a list, in order. -/
def slotsOf (xs : List MaInput) : List SlotAddr := (xs.filter (·.inValid)).map (·.inAddr)

/-- A slot is among those of a list of rows if a valid row of the list has it. -/
theorem mem_slotsOf {a : SlotAddr} {xs : List MaInput} : a ∈ slotsOf xs ↔ ∃ x ∈ xs, x.inValid = true ∧ x.inAddr = a := by
  simp [slotsOf, and_assoc]

/-- The later rows of a list have their slots among those of the list. -/
theorem slotsOf_sublist_cons (x : MaInput) (xs : List MaInput) : (slotsOf xs).Sublist (slotsOf (x :: xs)) :=
  ((List.sublist_cons_self x xs).filter _).map _

/-- The maxima of the valid rows of a list, in order. -/
def maximaOf (xs : List MaInput) : List Fp16 := (xs.filter (·.inValid)).map (·.max)

/-- A value is among the maxima of a list of rows if it is that of a valid row of the list. -/
theorem mem_maximaOf {v : Fp16} {xs : List MaInput} : v ∈ maximaOf xs ↔ ∃ x ∈ xs, x.inValid = true ∧ x.max = v := by
  simp [maximaOf, and_assoc]

/-- `GMAX` after the writes of a list of rows: FMAX folded over the maxima of the valid ones (R211). -/
theorem gmax_foldl_writeRow (xs : List MaInput) (r : RmaxRegs) :
    (xs.foldl writeRow r).gmax = (maximaOf xs).foldl fpMax r.gmax := by
  induction xs generalizing r with
  | nil => rfl
  | cons x xs ih =>
    rw [List.foldl_cons, ih, writeRow, gmax_nextRmax]
    cases hv : x.inValid <;> simp [maximaOf, hv]

/-- A slot no valid row of the list has is as before its writes. -/
theorem readSlots_foldl_writeRow_other (xs : List MaInput) {r : RmaxRegs} (hr : Memory.wf r.slot = true) {n : Nat}
    (hn : ∀ a ∈ slotsOf xs, a.toNat ≠ n) : readSlots (xs.foldl writeRow r).slot n = readSlots r.slot n := by
  induction xs generalizing r with
  | nil => rfl
  | cons x xs ih =>
    have hlater : ∀ a ∈ slotsOf xs, a.toNat ≠ n := fun a ha =>
      hn a ((slotsOf_sublist_cons x xs).subset ha)
    have hx : ¬ (x.inValid = true ∧ n = x.inAddr.toNat) := fun ⟨hv, heq⟩ =>
      hn x.inAddr (mem_slotsOf.mpr ⟨x, List.mem_cons_self, hv, rfl⟩) heq.symm
    rw [List.foldl_cons, ih (wf_writeRow x hr) hlater, writeRow, readSlots_nextRmax _ _ _ hr, if_neg hx]

/-- With a slot of its own for each valid row every maximum is in its slot after the writes: no later row overwrites it
(R318). -/
theorem readSlots_foldl_writeRow_self {xs : List MaInput} (hslots : OneSlotPerRow xs) {r : RmaxRegs}
    (hr : Memory.wf r.slot = true) {x : MaInput} (hx : x ∈ xs) (hv : x.inValid = true) :
    readSlots (xs.foldl writeRow r).slot x.inAddr.toNat = x.max := by
  induction xs generalizing r with
  | nil => exact absurd hx List.not_mem_nil
  | cons y ys ih =>
    have hnodup : (slotsOf (y :: ys)).Nodup := hslots
    rw [List.foldl_cons]
    rcases List.mem_cons.mp hx with rfl | hx
    · have hcons : slotsOf (x :: ys) = x.inAddr :: slotsOf ys := by simp [slotsOf, hv]
      rw [hcons, List.nodup_cons] at hnodup
      obtain ⟨hfresh, -⟩ := hnodup
      have hother : ∀ a ∈ slotsOf ys, a.toNat ≠ x.inAddr.toNat := fun a ha heq =>
        hfresh (BitVec.eq_of_toNat_eq heq ▸ ha)
      rw [readSlots_foldl_writeRow_other ys (wf_writeRow x hr) hother, writeRow, readSlots_nextRmax _ _ _ hr,
        if_pos ⟨hv, rfl⟩]
    · exact ih (hnodup.sublist (slotsOf_sublist_cons y ys)) (wf_writeRow y hr) hx

/-! ### One cycle of the pass -/

/-- A step with a cycle still to present is the edge of that cycle; the others stay to present. -/
theorem step_of_stim {s : State} {c : Cycle} {cs : List Cycle} (h : s.stim = c :: cs) :
    ∃ t, step s = .next t ∧ t.stim = cs ∧ edge c ((s.withStim cs).withPorts c) = .next t := by
  have hstep : step s = edge c ((s.withStim cs).withPorts c) := by simp [step, beginCycle, nextCycle, h]
  exact ⟨_, hstep.trans (edge_eq ..), rfl, edge_eq ..⟩

/-- One edge leaves RMAX as the write the cycle presents to it, its ports settled, leaves it: the slots as data, not only as
what they read. -/
theorem edge_commits_rmax {c : Cycle} {s t : State} {i : Instr} (h : edge c s = .next t)
    (hi : presentedTo c .rmaxwr = i) :
    ∃ u, exec (settleInputs c.wires c.rmaxrd s i) s = .next u ∧ t.rmax = u.rmax := by
  rw [edge_eq] at h
  cases h
  cases hi
  exact ⟨_, rfl, by simp [Cycle.record]⟩

/-- With RMAX wired to PIPEMA one edge commits the presented row to PIPEMA, against `GMAX`, and what PIPEMA's maximum ports
show to RMAX, unless the cycle resets both (R32, R226, R228). -/
theorem edge_of_fixed_wires {others : Cycle} {reset inValid : Bool} {inAddr : SlotAddr} {gmaxIn : Fp16}
    {inWord : RowWord} {s t : State}
    (h : edge (({ others with wires := .fixed }.give (.pipema reset inValid inAddr gmaxIn inWord)).give
      (.rmaxwr reset false 0 0)) s = .next t) :
    t.rmax = nextRmax reset s.pipema.s2.v s.pipema.s2.addr (rowMax s.pipema.s2) s.rmax ∧
      t.pipema = nextPipema s.cfg reset inValid inAddr s.rmax.gmax inWord s.pipema := by
  generalize hd : (({ others with wires := .fixed }.give (.pipema reset inValid inAddr gmaxIn inWord)).give
    (.rmaxwr reset false 0 0)) = d at h
  have hw : d.wires = .fixed := by simp [← hd]
  have hwr : presentedTo d .rmaxwr = .rmaxwr reset false 0 0 := by
    rw [← hd]; exact presentedTo_give _ (.rmaxwr reset false 0 0)
  have hma : presentedTo d .pipema = .pipema reset inValid inAddr gmaxIn inWord := by
    rw [← hd, presentedTo_give_other _ _ (by simp [Instr.op])]
    exact presentedTo_give _ (.pipema reset inValid inAddr gmaxIn inWord)
  obtain ⟨u, hu, hrmax⟩ := edge_commits_rmax h hwr
  obtain ⟨v, hv, hpipema, -⟩ := edge_commits_presented h hma
  rw [hw] at hu hv
  cases hu
  cases hv
  exact ⟨hrmax, hpipema⟩

/-- `S1` holds one row and `S2` the one before it. -/
def InFirstRanks (x y : MaInput) (r : PipeMaRegs) : Prop := r.s1 = x.inS1 ∧ r.s2 = y.inS2

/-- A row cycle moves the ranks one row on and writes the maximum of the row that was in `S2`. -/
theorem step_rowCycle {s : State} {x y z : MaInput} {others : Cycle} {cs : List Cycle}
    (hstim : s.stim = rowCycle x others :: cs) (hranks : InFirstRanks y z s.pipema) :
    ∃ t, step s = .next t ∧ t.stim = cs ∧ InFirstRanks x y t.pipema ∧ t.rmax = writeRow s.rmax z := by
  obtain ⟨t, hstep, hrest, hedge⟩ := step_of_stim hstim
  obtain ⟨hrmax, hpipema⟩ := edge_of_fixed_wires hedge
  obtain ⟨hs1, hs2⟩ := hranks
  refine ⟨t, hstep, hrest, ⟨?_, ?_⟩, ?_⟩
  · rw [hpipema]; rfl
  · rw [hpipema, MaInput.inS2, ← hs1]; rfl
  · rw [hrmax, withPorts_pipema, withStim_pipema, hs2]; rfl

/-- The reset cycle leaves RMAX as reset and the first ranks as a bubble would (R213, R315). -/
theorem step_firstPassReset {s : State} {others : Cycle} {cs : List Cycle}
    (hstim : s.stim = firstPassReset others :: cs) :
    ∃ t, step s = .next t ∧ t.stim = cs ∧ InFirstRanks bubble bubble t.pipema ∧ t.rmax = .reset := by
  obtain ⟨t, hstep, hrest, hedge⟩ := step_of_stim hstim
  obtain ⟨hrmax, hpipema⟩ := edge_of_fixed_wires hedge
  refine ⟨t, hstep, hrest, ?_, hrmax⟩
  rw [hpipema]
  exact ⟨rfl, rfl⟩

/-! ### A run of row cycles -/

/-- A run of row cycles writes the maxima of the two rows in the first ranks and of the rows presented but the last two,
which are still in the ranks (R235). -/
theorem run_rowCycles (rows : List (MaInput × Cycle)) {s : State} {y z : MaInput}
    (hstim : s.stim = rows.map fun r => rowCycle r.1 r.2) (hranks : InFirstRanks y z s.pipema) :
    ∃ t : State, Sys2Proof.core.run rows.length s = .next t ∧
      t.rmax = ((z :: y :: rows.map Prod.fst).take rows.length).foldl writeRow s.rmax := by
  induction rows generalizing s y z with
  | nil => exact ⟨s, rfl, rfl⟩
  | cons r rows ih =>
    obtain ⟨t, hstep, hrest, hnext, hrmax⟩ := step_rowCycle hstim hranks
    obtain ⟨u, hrun, hwrites⟩ := ih hrest hnext
    refine ⟨u, (run_succ_of_step hstep _).trans hrun, ?_⟩
    rw [hwrites, hrmax]
    rfl

/-- The first pass leaves RMAX with the writes of all its rows, from reset. -/
theorem run_firstPass (rows : List (MaInput × Cycle)) (first last1 last2 : Cycle) (s : State) :
    ∃ t : State, Sys2Proof.core.run (rows.length + 3) (s.withStim (firstPass rows first last1 last2)) = .next t ∧
      t.rmax = (rows.map Prod.fst).foldl writeRow .reset := by
  obtain ⟨t, hstep, hrest, hranks, hrmax⟩ :=
    step_firstPassReset (withStim_stim s (firstPass rows first last1 last2))
  obtain ⟨u, hrun, hwrites⟩ := run_rowCycles (rows ++ [(bubble, last1), (bubble, last2)])
    (hrest.trans (by simp)) hranks
  rw [List.length_append] at hrun
  refine ⟨u, (run_succ_of_step hstep _).trans hrun, ?_⟩
  have htake : (bubble :: bubble :: (rows ++ [(bubble, last1), (bubble, last2)]).map Prod.fst).take
      (rows ++ [(bubble, last1), (bubble, last2)]).length = bubble :: bubble :: rows.map Prod.fst := by simp
  rw [hwrites, htake, hrmax, List.foldl_cons, List.foldl_cons, writeRow_of_not_valid rfl, writeRow_of_not_valid rfl]

/-! ### The statement -/

/-- Settles O58: the pass is a list of writes from reset; no write goes to a slot of another row (R318), and `GMAX` is
FMAX folded over the maxima (R214 (a)). -/
theorem firstPassFindsEveryMaximum : Obligations.FirstPassFindsEveryMaximum := by
  intro rows first last1 last2 s hslots
  obtain ⟨t, hrun, hrmax⟩ := run_firstPass rows first last1 last2 s
  have hgmax : t.rmax.gmax = (maximaOf (rows.map Prod.fst)).foldl fpMax 0xFBFF#16 := by
    rw [hrmax, gmax_foldl_writeRow]; rfl
  have hmem := hgmax ▸ foldl_fpMax_mem 0xFBFF#16 (maximaOf (rows.map Prod.fst))
  obtain ⟨hreset, hmaxima⟩ :=
    List.forall_mem_cons.mp (hgmax ▸ orderKey_le_foldl_fpMax 0xFBFF#16 (maximaOf (rows.map Prod.fst)))
  refine ⟨t, hrun, fun r hr hv => ?own, fun n hn => ?other, ?attained, hreset, fun r hr hv => ?greatest⟩
  case own =>
    rw [hrmax]
    exact readSlots_foldl_writeRow_self hslots wf_nil (List.mem_map_of_mem hr) hv
  case other =>
    rw [hrmax, readSlots_foldl_writeRow_other _ wf_nil ?_]
    · rfl
    · intro a ha
      obtain ⟨x, hx, hv, rfl⟩ := mem_slotsOf.mp ha
      obtain ⟨r, hr, rfl⟩ := List.mem_map.mp hx
      exact hn r hr hv
  case attained =>
    rcases List.mem_cons.mp hmem with hkept | hwritten
    · exact .inl hkept
    · obtain ⟨x, hx, hv, hmax⟩ := mem_maximaOf.mp hwritten
      obtain ⟨r, hr, rfl⟩ := List.mem_map.mp hx
      exact .inr ⟨r, hr, hv, hmax.symm⟩
  case greatest => exact hmaxima _ (mem_maximaOf.mpr ⟨r.1, List.mem_map_of_mem hr, hv, rfl⟩)

end Sys2Proof.Machine
end

section
/-!
PROOFS of the statements about PIPERP (`48_pipe_rp.md`): one edge, and a run of edges under stall.
-/

namespace Sys2Proof.Machine

/-! ### Edges under stall -/

/-- Edges under stall leave PIPERP's pair, whatever inputs they see (R252). -/
theorem execAll_stalled (xs : List Fixed) (s : State) :
    Completes (execAll (xs.map fun y => .piperp false true y) s) fun t => t.cfg = s.cfg ∧ t.piperp = s.piperp := by
  induction xs generalizing s with
  | nil => exact ⟨s, rfl, rfl, rfl⟩
  | cons x xs ih =>
    rw [List.map_cons, execAll_cons_next (exec_piperp ..)]
    exact ih _

/-- The edge after edges under stall shows the pair from before them and takes its next pair from it (R251). -/
theorem execAll_stalled_concat (xs : List Fixed) (stall : Bool) (x : Fixed) (s : State) :
    Completes (execAll (xs.map (fun y => .piperp false true y) ++ [.piperp false stall x]) s) fun t =>
      t.out.piperp = showPiperp s.piperp ∧ t.piperp = nextPiperp s.cfg false stall x s.piperp := by
  obtain ⟨t, hrun, hcfg, hpair⟩ := execAll_stalled xs s
  rw [execAll_append hrun, execAll_single, ← hcfg, ← hpair]
  exact ⟨_, exec_piperp .., rfl, rfl⟩

/-! ### The statements -/

/-- Settles O47: the last edge of either run comes after edges under stall, see `execAll_stalled_concat` (R252). -/
theorem stallHoldsThePair : Obligations.StallHoldsThePair := by
  intro xs x s
  refine ⟨?_, execAll_stalled_concat xs false x s⟩
  rcases List.eq_nil_or_concat xs with rfl | ⟨ys, y, rfl⟩
  · exact ⟨s, rfl, rfl, fun h => absurd rfl h⟩
  · obtain ⟨t, hrun, hshown, hpair⟩ := execAll_stalled_concat ys true y s
    rw [List.concat_eq_append, List.map_append]
    exact ⟨t, hrun, hpair, fun _ => hshown⟩

/-- Settles O46: the equation of one edge (R251). -/
theorem piperpSamplesHoldsOrClears : Obligations.PiperpSamplesHoldsOrClears := fun _ _ _ s =>
  ⟨_, exec_piperp .., operationsChangeOnlyTheirUnit _ s _ (exec_piperp ..), rfl, rfl⟩

end Sys2Proof.Machine
end

section
/-!
PROOFS of the statements about PIPEDIV (`49_pipe_div.md`): one edge, the 5-bit sum of code and `ky`, and a row five edges
on.
-/

namespace Sys2Proof.Machine

/-! ### The sums of `T3` -/

/-- A code and a `ky` add in 5 bits without loss (R262, C5). -/
theorem setWidth_add_setWidth_toNat (code ky : Code) :
    (code.setWidth 5 + ky.setWidth 5).toNat = code.toNat + ky.toNat := by
  have hcode := code.isLt
  have hky := ky.isLt
  rw [BitVec.toNat_add, BitVec.toNat_setWidth, BitVec.toNat_setWidth]
  omega

/-! ### A row five edges on -/

/-- A row's code: that of local minus global maximum (R263, R264). -/
def DivInput.code (p : Params) (x : DivInput) : Code := log2Code (fpSub p x.lmaxIn x.gmaxIn)

/-- The quotients of a row: the threshold of the cycle in which it is in `T3`, scaled down channel by channel (R265). -/
def DivInput.quotients (p : Params) (ksIn : Code) (thrIn : Fp16) (x : DivInput) : Quad Fp16 :=
  (lanes4 x.kyIn).map fun ky => approxDivide ((x.code p).setWidth 5 + ky.setWidth 5).toNat ksIn.toNat thrIn

/-- Executing a row commits every rank from the rank before it and shows `T5` (R261, R267). -/
theorem exec_divRow (x : DivInput) (s : State) :
    exec x.op s = .next ((s.withOut { s.out with pipediv := showPipediv s.pipediv }).withPipediv
      (nextPipediv s.cfg false x.inValid x.lmaxIn x.gmaxIn x.kyIn x.ksIn x.thrIn s.pipediv)) := rfl

/-- Five edges carry a row through `T1` to `T5`, and the sixth shows it; of the rows after it only the pair presented with
the third counts (R265, R269). -/
theorem execAll_divRow_shown (row x1 x2 x3 x4 x5 : DivInput) (s : State) :
    Completes (execAll [row.op, x1.op, x2.op, x3.op, x4.op, x5.op] s) fun t =>
      t.out.pipediv = ⟨row.inValid, packRow (row.quotients s.cfg x3.ksIn x3.thrIn)⟩ := by
  rw [execAll_cons_next (exec_divRow ..), execAll_cons_next (exec_divRow ..), execAll_cons_next (exec_divRow ..),
    execAll_cons_next (exec_divRow ..), execAll_cons_next (exec_divRow ..), execAll_single]
  exact ⟨_, exec_divRow .., rfl⟩

/-! ### The channels of the output -/

/-- Channel `i` of the quotients in a row word is the divider's answer for lane `i` of the row's `ky` (R84, R85, R266). -/
theorem slice_packRow_quotients (p : Params) (ksIn : Code) (thrIn : Fp16) (x : DivInput) {i : Nat} (hi : i < 4) :
    (packRow (x.quotients p ksIn thrIn)).extractLsb' (16 * i) 16 =
      approxDivide ((x.code p).setWidth 5 + (x.kyIn.extractLsb' (4 * i) 4).setWidth 5).toNat ksIn.toNat thrIn := by
  have hlanes := lanes16_packRow (x.quotients p ksIn thrIn)
  match i, hi with
  | 0, _ => exact congrArg Quad.l0 hlanes
  | 1, _ => exact congrArg Quad.l1 hlanes
  | 2, _ => exact congrArg Quad.l2 hlanes
  | 3, _ => exact congrArg Quad.l3 hlanes

/-- Lane `i` of a packed vector is its hexadecimal digit of weight `16 ^ i` (R85). -/
theorem lane4_toNat (v : PackedVec) (i : Nat) : (v.extractLsb' (4 * i) 4).toNat = v.toNat / 16 ^ i % 16 := by
  simp only [slice_toNat, Nat.pow_mul, Nat.reducePow]

/-! ### The statements -/

/-- Settles O49: the sixth edge shows the row's quotients (`execAll_divRow_shown`), each the divider's answer
for code plus `ky`, which add without loss (R262), and `ks` (R201). -/
theorem pipedivDividesRowAfterFiveEdges : Obligations.PipedivDividesRowAfterFiveEdges := by
  intro row x1 x2 x3 x4 x5 s
  obtain ⟨t, hrun, hshown⟩ := execAll_divRow_shown row x1 x2 x3 x4 x5 s
  refine ⟨t, hrun, by rw [hshown], fun i hi => ?_⟩
  rw [hshown, slice_packRow_quotients _ _ _ _ hi]
  refine ⟨sign_approxDivide .., mant_approxDivide .., ?_⟩
  rw [expo_approxDivide_toNat, setWidth_add_setWidth_toNat, lane4_toNat]
  rfl

/-- Settles O48: the equation of one edge (R261); each rank's next value is the function of the rank before it that the
statement writes out. -/
theorem pipedivEdgeCommitsEveryRank : Obligations.PipedivEdgeCommitsEveryRank := by
  intro reset inValid lmaxIn gmaxIn kyIn ksIn thrIn s
  refine ⟨_, exec_pipediv .., operationsChangeOnlyTheirUnit _ s _ (exec_pipediv ..), rfl, ?reset, ?advance⟩
  case reset =>
    rintro rfl
    rfl
  case advance =>
    rintro rfl
    exact ⟨rfl, rfl, rfl, rfl, rfl⟩

end Sys2Proof.Machine
end

section
/-!
PROOFS of the statement about exceptions (`60_exceptions.md`): there are none (R280).
-/

namespace Sys2Proof.Machine

/-- Every operation answers a next state: the equation of each meaning does (R280, R92). -/
theorem exec_completes (i : Instr) (s : State) : ∃ t, exec i s = .next t := by
  cases i <;> exact ⟨_, rfl⟩

/-- Settles O6: see `step_completes` and `exec_completes`. -/
theorem stepAlwaysAnswersNextState : Obligations.StepAlwaysAnswersNextState := ⟨step_completes, exec_completes⟩

end Sys2Proof.Machine
end

section
/-!
PROOFS of the statements about reset and hazards (`70_reset_and_hazards.md`): the state after reset and the first edge from
it, a step without a stimulus, and writes to distinct slots.
-/

namespace Sys2Proof.Machine

/-! ### The rows in PIPEMA -/

/-- Unless it is reset PIPEMA moves its rows on at every edge, and folds the one in `S5` into `ACC` (R221, R312). -/
theorem edge_advances_pipema {c : Cycle} {s t : State} (h : edge c s = .next t) (hpin : c.pipema.getLsbD 91 = false) :
    t.pipema.s2 = nextS2 s.pipema.s1 ∧ t.pipema.s5 = nextS5 s.pipema.s4 ∧
      t.pipema.acc = nextAcc s.pipema.s5 s.pipema.acc := by
  rw [edge_eq, hpin] at h
  cases h
  exact ⟨rfl, rfl, rfl⟩

/-- From the zeros of reset `S4` passes on four codes 0, whose lane values are 1.0 each (R191, R234). -/
theorem nextS5_reset : nextS5 PipeMaRegs.reset.s4 = ⟨false, 0, 0, 0, 0x00020000, 0x00020000⟩ := by decide

/-! ### A step without a stimulus -/

/-- The step is the edge on what is on the input ports next; the rest of the stimulus stays to present (log 2). -/
theorem step_eq_edge {s : State} {c : Cycle} {cs : List Cycle} (hcycle : nextCycle s = c) (htail : s.stim.tail = cs) :
    step s = edge c ((s.withStim cs).withPorts c) := by
  simp only [step, beginCycle, hcycle, htail]

/-! ### Writes to slots -/

/-- An edge of RMAX keeps the slots canonical (log 6). -/
theorem wf_nextRmax (reset we : Bool) (waddr : SlotAddr) (wdata : Fp16) {r : RmaxRegs} (h : Memory.wf r.slot = true) :
    Memory.wf (nextRmax reset we waddr wdata r).slot = true := by
  cases reset with
  | true => exact wf_nil
  | false =>
    cases we with
    | true => exact wf_writeSlots h waddr wdata
    | false => exact h

/-! ### The statements -/

/-- Settles O40, by induction over the writes: no later write goes to the slot of the first (R318). -/
theorem distinctSlotsKeepEveryWrite : Obligations.DistinctSlotsKeepEveryWrite := by
  intro ws
  induction ws with
  | nil => exact fun s _ _ => ⟨s, rfl, fun _ hw => absurd hw List.not_mem_nil, fun _ _ => rfl⟩
  | cons w ws ih =>
    intro s hwf hnodup
    obtain ⟨hfresh, hnodup⟩ := List.nodup_cons.mp hnodup
    obtain ⟨t, hrun, hlater, hother⟩ :=
      ih (s.withRmax (nextRmax false true w.1 w.2 s.rmax)) (wf_nextRmax false true w.1 w.2 hwf) hnodup
    have hfirst := readSlots_nextRmax true w.1 w.2 hwf
    rw [List.map_cons, execAll_cons_next (exec_rmaxwr ..)]
    refine ⟨t, hrun, List.forall_mem_cons.mpr ⟨?_, hlater⟩, fun n hn => ?_⟩
    · have hkept : ∀ v ∈ ws, v.1.toNat ≠ w.1.toNat := fun v hv heq =>
        hfresh (BitVec.eq_of_toNat_eq heq ▸ List.mem_map_of_mem hv)
      exact (hother _ hkept).trans ((hfirst _).trans (if_pos ⟨rfl, rfl⟩))
    · obtain ⟨hw, hn⟩ := List.forall_mem_cons.mp hn
      exact (hother n hn).trans ((hfirst n).trans (if_neg fun h => hw h.2.symm))

/-- Settles O12: `S5` takes the record of four codes 0 from `S4`; no rank held a valid row, so `ACC` and the valid bits stay
(R312, R234). -/
theorem firstEdgeAfterResetComputesZeroRecord : Obligations.FirstEdgeAfterResetComputesZeroRecord := by
  intro c hpin
  obtain ⟨t, ht⟩ := edge_completes c State.reset
  obtain ⟨hs2, hs5, hacc⟩ := edge_advances_pipema ht hpin
  have hrecord : t.pipema.s5 = ⟨false, 0, 0, 0, 0x00020000, 0x00020000⟩ := hs5.trans nextS5_reset
  exact ⟨t, ht, congrArg (·.p01) hrecord, congrArg (·.p23) hrecord, congrArg (·.vec) hrecord, hacc,
    congrArg (·.v) hs2, congrArg (·.v) hrecord⟩

/-- Settles O51: the reset values of R311, unit by unit; an unlisted slot reads 0x0000. -/
theorem resetStateHoldsSpecifiedValues : Obligations.ResetStateHoldsSpecifiedValues :=
  ⟨rfl, rfl, readSlots_nil, rfl, rfl, rfl, rfl⟩

/-- Settles O52: the ports show the registers of the last edge (R31), here their reset values. -/
theorem outputsInFirstCycleAfterReset : Obligations.OutputsInFirstCycleAfterReset := by
  refine ⟨?max4, ?expsum, ?rmaxrd, ?pipema, ?piperp, ?pipediv⟩ <;> intros
  case max4 => exact ⟨_, exec_max4 .., rfl⟩
  case expsum => exact ⟨_, exec_expsum .., rfl⟩
  case rmaxrd => exact ⟨_, exec_rmaxrd .., rfl⟩
  case pipema => exact ⟨_, exec_pipema .., rfl⟩
  case piperp => exact ⟨_, exec_piperp .., rfl⟩
  case pipediv => exact ⟨_, exec_pipediv .., rfl⟩

/-- Settles O10: with or without the ports' values as its stimulus the step is the edge on them (log 2). -/
theorem emptyStimulusClocksHeldPorts : Obligations.EmptyStimulusClocksHeldPorts := by
  intro s hstim
  have hheld : step s = edge s.ports ((s.withStim []).withPorts s.ports) :=
    step_eq_edge (by simp [nextCycle, hstim]) (by simp [hstim])
  have hgiven : step (s.withStim [s.ports]) = edge s.ports ((s.withStim []).withPorts s.ports) := step_eq_edge rfl rfl
  refine ⟨hheld.trans hgiven.symm, ?_⟩
  have hedge := edge_eq s.ports ((s.withStim []).withPorts s.ports)
  have hranks := edge_advances_pipema hedge
  exact ⟨_, hheld.trans hedge, rfl, rfl, rfl, hranks⟩

end Sys2Proof.Machine
end

section
/-!
PROOF of the statement about canonical memories (`20_memory.md`, log 6): what a canonical memory reads determines it.
-/

namespace Sys2Proof.Machine

/-- A canonical memory is canonical from its first address on, does not list 0x0000 there, and its rest is canonical from
the next address on. -/
theorem slotsWfFrom_cons {lo a : Nat} {w : BitVec 16} {m : Slots} (h : slotsWfFrom lo ((a, w) :: m) = true) :
    w ≠ 0#16 ∧ slotsWfFrom a ((a, w) :: m) = true ∧ slotsWfFrom (a + 1) m = true := by
  simp only [slotsWfFrom, Bool.and_eq_true, decide_eq_true_eq] at h ⊢
  obtain ⟨⟨⟨-, hdepth⟩, hw⟩, hm⟩ := h
  exact ⟨hw, ⟨⟨⟨Nat.le_refl a, hdepth⟩, hw⟩, hm⟩, hm⟩

@[simp] theorem readSlots_cons_self (a : Nat) (w : BitVec 16) (m : Slots) : readSlots ((a, w) :: m) a = w := if_pos rfl

/-- The first address of a canonical memory is the least one that does not read 0x0000. -/
theorem first_address_le {lo a n : Nat} {w : BitVec 16} {m : Slots} (h : slotsWfFrom lo ((a, w) :: m) = true)
    (hn : readSlots ((a, w) :: m) n ≠ 0#16) : a ≤ n := by
  obtain ⟨-, hfrom, -⟩ := slotsWfFrom_cons h
  exact Nat.le_of_not_lt fun hlt => hn (readSlots_below hfrom hlt)

/-- Canonical memories that read the same begin at the same address with the same value, and so on. -/
theorem eq_of_readSlots_eq {m m' : Slots} {lo lo' : Nat} (hm : slotsWfFrom lo m = true) (hm' : slotsWfFrom lo' m' = true)
    (hread : ∀ n, readSlots m n = readSlots m' n) : m = m' := by
  induction m generalizing m' lo lo' with
  | nil =>
    cases m' with
    | nil => rfl
    | cons p' m' =>
      obtain ⟨b, u⟩ := p'
      obtain ⟨hu, -⟩ := slotsWfFrom_cons hm'
      exact absurd (by simpa using (hread b).symm) hu
  | cons p m ih =>
    obtain ⟨a, w⟩ := p
    obtain ⟨hw, -, hrest⟩ := slotsWfFrom_cons hm
    cases m' with
    | nil => exact absurd (by simpa using hread a) hw
    | cons p' m' =>
      obtain ⟨b, u⟩ := p'
      obtain ⟨hu, -, hrest'⟩ := slotsWfFrom_cons hm'
      obtain rfl : a = b := Nat.le_antisymm (first_address_le hm (by simpa [hread] using hu))
        (first_address_le hm' (by simpa [← hread] using hw))
      obtain rfl : w = u := by simpa using hread a
      have hsame : ∀ n, readSlots m n = readSlots m' n := by
        intro n
        by_cases hn : n = a
        · rw [hn, readSlots_below hrest (Nat.lt_succ_self a), readSlots_below hrest' (Nat.lt_succ_self a)]
        · simpa [readSlots, hn] using hread n
      rw [ih hrest hrest' hsame]

/-- Settles O41: see `eq_of_readSlots_eq` (log 6). -/
theorem equalReadsMeanEqualMemories : Obligations.EqualReadsMeanEqualMemories := fun _ _ => eq_of_readSlots_eq

end Sys2Proof.Machine
end

section
/-!
PROOFS of the statements about the machine's invariant (`10_state.md`): unit by unit, what reset leaves satisfies the unit's
part of it, and so does what any edge leaves.
-/

namespace Sys2Proof.Machine

/-! ### The parts of the invariant -/

/-- RMAX's part: canonical slots (log 6), `GMAX` not below its reset value (R214 (a)). -/
def RmaxRegs.Inv (r : RmaxRegs) : Prop := Memory.wf r.slot = true ∧ orderKey gmaxReset ≤ orderKey r.gmax

/-- The part of PIPEMA's `S2`: its pair maxima are those of its lanes (R223). -/
def StageS2.Inv (r : StageS2) : Prop := r.rAB = fpMax r.lane.l0 r.lane.l1 ∧ r.rCD = fpMax r.lane.l2 r.lane.l3

/-- The part of PIPEMA's `S3`: no difference is subnormal (R93). -/
def StageS3.Inv (r : StageS3) : Prop := r.diff.all notSub = true ∧ notSub r.diff4 = true

/-- PIPEMA's part; that of `S5` is its partial sums (R230). -/
def PipeMaRegs.Inv (r : PipeMaRegs) : Prop := r.s2.Inv ∧ r.s3.Inv ∧ stageS5Consistent r.s5 = true

/-- PIPERP's part: the threshold is a literal, or the pair that of reset (R87, R254). -/
def PipeRpRegs.Inv (p : Params) (r : PipeRpRegs) : Prop := r = .reset ∨ r.thr = p.thrF1 ∨ r.thr = p.thrF0

/-- PIPEDIV's part: no subnormal difference in `T1` (R93), sums of two codes in `T3` (R262). -/
def PipeDivRegs.Inv (r : PipeDivRegs) : Prop :=
  notSub r.t1.diff = true ∧ r.t3.sum.all (fun x => decide (x.toNat ≤ 30)) = true

/-- The invariant is that of its parts. -/
theorem State.inv_iff (s : State) :
    s.inv = true ↔ s.cfg.wf = true ∧ Memory.wf s.vec = true ∧ partialsBounded s.expsum = true ∧ s.rmax.Inv ∧
      s.pipema.Inv ∧ s.piperp.Inv s.cfg ∧ s.pipediv.Inv := by
  simp only [State.inv, RmaxRegs.Inv, PipeMaRegs.Inv, StageS2.Inv, StageS3.Inv, PipeRpRegs.Inv, PipeDivRegs.Inv,
    Bool.and_eq_true, Bool.or_eq_true, decide_eq_true_eq, or_assoc]
  tauto

/-! ### After reset -/

theorem RmaxRegs.inv_reset : RmaxRegs.reset.Inv := ⟨wf_nil, le_rfl⟩

theorem PipeMaRegs.inv_reset : PipeMaRegs.reset.Inv := ⟨⟨by decide, by decide⟩, ⟨by decide, by decide⟩, by decide⟩

theorem PipeDivRegs.inv_reset : PipeDivRegs.reset.Inv := ⟨by decide, by decide⟩

/-! ### After an edge -/

/-- EXPSUM commits zeros or sums of two lane values (R193). -/
theorem partialsBounded_nextExpsum (reset : Bool) (vec : PackedVec) : partialsBounded (nextExpsum reset vec) = true := by
  cases reset with
  | true => rfl
  | false =>
    obtain ⟨h01, h23⟩ := bounded_nextS5 ⟨false, 0, lanes4 vec, 0⟩
    exact Bool.and_eq_true_iff.mpr ⟨decide_eq_true h01, decide_eq_true h23⟩

/-- A write takes the FMAX of `GMAX` and the value, which is not below `GMAX` (R211, R214 (a)). -/
theorem RmaxRegs.Inv.next {r : RmaxRegs} (h : r.Inv) (reset we : Bool) (waddr : SlotAddr) (wdata : Fp16) :
    (nextRmax reset we waddr wdata r).Inv := by
  obtain ⟨hwf, hgmax⟩ := h
  refine ⟨wf_nextRmax reset we waddr wdata hwf, ?_⟩
  cases reset with
  | true => exact le_rfl
  | false =>
    rw [gmax_nextRmax]
    cases we with
    | true => exact hgmax.trans (orderKey_fpMax r.gmax wdata ▸ le_max_left ..)
    | false => exact hgmax

/-- FSUB never answers a subnormal code (R93, R130). -/
theorem notSub_fpSub (p : Params) (a b : Fp16) : notSub (fpSub p a b) = true := by
  rw [notSub, fpSub, isSub_fpAdd, Bool.not_false]

/-- `S5` takes the partial sums of the codes it packs (R230). -/
theorem stageS5Consistent_nextS5 (r : StageS4) : stageS5Consistent (nextS5 r) = true := by
  have hsums : partialSums (lanes4 (nextS5 r).vec) = ⟨(nextS5 r).p01, (nextS5 r).p23⟩ := by
    rw [nextS5, lanes4_packVec]
  rw [stageS5Consistent, decide_eq_true hsums, Bool.true_or]

/-- Whatever its ranks held, PIPEMA's part holds after an edge. -/
theorem PipeMaRegs.inv_next (p : Params) (reset inValid : Bool) (inAddr : SlotAddr) (gmaxIn : Fp16) (inWord : RowWord)
    (r : PipeMaRegs) : (nextPipema p reset inValid inAddr gmaxIn inWord r).Inv := by
  cases reset with
  | true => exact inv_reset
  | false =>
    have hs3 : (nextS3 p gmaxIn r.s2).Inv := by
      simp [StageS3.Inv, nextS3, Quad.all, Quad.map, notSub_fpSub]
    exact ⟨⟨rfl, rfl⟩, hs3, stageS5Consistent_nextS5 r.s4⟩

/-- LOD selects one of the two literals (R162). -/
theorem leadingOneThreshold_thr (p : Params) (x : Fixed) :
    (leadingOneThreshold p x).thr = p.thrF1 ∨ (leadingOneThreshold p x).thr = p.thrF0 :=
  ite_eq_or_eq ..

/-- PIPERP takes the reset pair, keeps its own, or takes LOD's answer (R251). -/
theorem PipeRpRegs.Inv.next {p : Params} {r : PipeRpRegs} (h : r.Inv p) (reset stall : Bool) (xIn : Fixed) :
    (nextPiperp p reset stall xIn r).Inv p := by
  cases reset with
  | true => exact .inl rfl
  | false =>
    cases stall with
    | true => exact h
    | false => exact .inr (leadingOneThreshold_thr p xIn)

/-- A code and a `ky`, at most 15 each, add to at most 30 (R262). -/
theorem setWidth_add_setWidth_le (code ky : Code) : (code.setWidth 5 + ky.setWidth 5).toNat ≤ 30 := by
  have hcode := code.isLt
  have hky := ky.isLt
  rw [setWidth_add_setWidth_toNat]
  omega

/-- Whatever its ranks held, PIPEDIV's part holds after an edge. -/
theorem PipeDivRegs.inv_next (p : Params) (reset inValid : Bool) (lmaxIn gmaxIn : Fp16) (kyIn : PackedVec) (ksIn : Code)
    (thrIn : Fp16) (r : PipeDivRegs) : (nextPipediv p reset inValid lmaxIn gmaxIn kyIn ksIn thrIn r).Inv := by
  cases reset with
  | true => exact inv_reset
  | false =>
    have hsums : (nextT3 r.t2).sum.all (fun x => decide (x.toNat ≤ 30)) = true := by
      simp only [nextT3, Quad.all, Quad.map, setWidth_add_setWidth_le, decide_true, Bool.and_true]
    exact ⟨notSub_fpSub p lmaxIn gmaxIn, hsums⟩

/-! ### The statements -/

/-- Settles O8: every register's next value satisfies its unit's part; `cfg` stays (R9). -/
theorem stepKeepsMachineInvariant : Obligations.StepKeepsMachineInvariant := by
  intro s t hinv hstep
  obtain ⟨hcfg, hvec, -, hrmax, -, hpiperp, -⟩ := s.inv_iff.mp hinv
  rw [step, edge_eq] at hstep
  cases hstep
  exact (State.inv_iff _).mpr ⟨hcfg, wf_nextVec (s := beginCycle s) _ hvec, partialsBounded_nextExpsum .., hrmax.next ..,
    PipeMaRegs.inv_next .., hpiperp.next .., PipeDivRegs.inv_next ..⟩

/-- Settles O9: reset leaves every unit's part (R311), and the parameters of R9 are legal. -/
theorem resetStateHasMachineInvariant : Obligations.ResetStateHasMachineInvariant :=
  State.reset.inv_iff.mpr ⟨by decide, wf_nil, by decide, RmaxRegs.inv_reset, PipeMaRegs.inv_reset, .inl rfl,
    PipeDivRegs.inv_reset⟩

end Sys2Proof.Machine
end
